-- ==== Sys2Proof/Word.lean ====
section
/-! DEFINITION. The word types of the block: a byte of M (00_scope.md R9), a 16-bit operand field and the 80-bit
command word (30_encoding.md R92). -/

namespace Sys2Proof

/-- A byte is 8 bits (R9). -/
abbrev Byte := BitVec 8

/-- One of the operand fields a, b, c, d of a command word, 16 bits (R92). -/
abbrev Field := BitVec 16

/-- The command word, 80 bits, bit 79 the most significant (R92). -/
abbrev CommandWord := BitVec 80

end Sys2Proof
end

