-- ==== Sys2Proof/Config.lean ====
section
/-! DEFINITION. The parameters the spec leaves open (00_scope.md R7, R8): PAL_BASE, with its two admissible values,
and BUILTIN, of which the spec gives no byte. The third named parameter, LineY, is the function
`Sys2Proof.Machine.lineY` of Machine/Rasterizer.lean (43_rasterizer.md R188). -/

namespace Sys2Proof.Config

/-- PAL_BASE, the address of the first byte of the palette-select plane. R7 constrains it to
`0x2400 <= PAL_BASE` and `PAL_BASE + 0x1200 <= 0x3601`; "exactly two values meet the constraint, 0x2400 and 0x2401".
The machine holds it in `State.palBase` (log entry 1), so that every claim covers both. -/
inductive PalBase where
  | x2400
  | x2401
deriving DecidableEq, Repr

/-- BUILTIN, the built-in sprite payload (R8, R40; D23). OPEN: "the model takes it as an argument; no byte is given by
the source", so it has no body (log entry 2). BUILTIN_LEN <= 0x901: a byte past the first 0x901 is never looked at. -/
opaque builtin : List Byte

end Sys2Proof.Config
end

