-- ==== Sys2Proof/Machine/State.lean ====
section
/-! DEFINITION. The state of the block (10_state.md) and what stands around it: the command port, the host's moves, the
responses and the published frames. Plain data. -/

namespace Sys2Proof.Machine

/-- The memory M (R20): the cells whose byte differs from what an unlisted address reads as (`Memory.unlisted`, the
reset contents of R46), at strictly rising addresses (`Memory.wf`). Equal memories are equal lists. -/
abbrev Memory := List Host.Cell

/-- The four status codes (R98): "Codes 0x04 to 0xFF are never returned". -/
inductive Status where
  /-- The command was executed. -/
  | ok
  /-- op is not in the opcode map (R251). -/
  | illegalCommand
  /-- loadSpriteSheet with LEN other than 0x3000 (R252). -/
  | badLength
  /-- getPixel outside the canvas (R253). -/
  | outOfRange
deriving DecidableEq, Repr

/-- The response of one command (R97): a status and 24 bits of data. `Response.word` packs it. -/
structure Response where
  status : Status
  data : BitVec 24
deriving DecidableEq, Repr

/-- How far the host is in its tick (R237), as far as R238 H3 ties SampleInput and Publish to a point of it. -/
inductive TickPhase where
  /-- No tick has begun, or the last one has published: the host may issue commands here too (R238). -/
  | betweenTicks
  /-- The tick's advance has been issued: the commands of Update and of Draw. -/
  | callbacks
  /-- The input sample has been written: only the publish of this tick is to come. -/
  | sampled
deriving DecidableEq, Repr

/-- What the host does to the block (R4 (d), R106, R237): issue a command, begin a tick, and the four host actions that
are no commands. A planned act that would break a duty of R238 is no move: `hostTurn` stops there. -/
inductive HostMove where
  /-- Issue one command: its word, and a load's payload (R93, R103; R238 H1, H4). -/
  | issue (bytes : List Byte)
  /-- Begin a tick: the run loop issues its advance (R237). -/
  | startTick
  /-- SampleInput(I): write the 58 input bytes, any values (R234). -/
  | sampleInput (input : Vector Byte 58)
  /-- Publish(): copy the frame region out (R236). -/
  | publish
  /-- Construct the block, which is reset (R233, R280). -/
  | construct
  /-- Destroy the instance (R47, R281). -/
  | destroy
deriving DecidableEq, Repr

/-- The state. `mem` is the whole state the spec gives the block (R20, R24): every register is a view of it (R10,
Machine/Registers.lean). `palBase` is the parameter of R7 and `constructed` the instance's lifetime (R47). The last five
fields are the MODEL's own, the host interface as data (log entries 4, 5 and 16). -/
structure State where
  /-- PAL_BASE (R7): fixed for the machine. -/
  palBase : Config.PalBase
  /-- M (R20). -/
  mem : Memory
  /-- Has the instance been constructed and not destroyed (R47)? -/
  constructed : Bool
  /-- The bytes on the command port that the block has not consumed (R93). -/
  port : List Byte
  /-- How far the host is in its tick (R237). -/
  phase : TickPhase
  /-- What the host does next, in order. -/
  moves : List HostMove
  /-- The responses returned so far, oldest first (R97, R286). -/
  responses : List Response
  /-- The frames published so far, oldest first (R236, R286). -/
  published : List Memory
deriving DecidableEq, Repr

/-- Why a step stops. No command stops: each is a planned host act that would break a duty of R238 ("the model gives the
host no move that breaks one; a claim about the block says nothing of a host that does"). -/
inductive Fault where
  /-- Raised by `hostTurn`: any act but construction while the block is not constructed (R47: after destruction it
  "accepts no command"; H5). Safe: the machine stops. -/
  | notConstructed
  /-- Raised by `hostTurn`: an act while the bytes on the port are only the beginning of a command (H1, H3: "only between
  commands"). No run that starts with an empty port comes here. Safe: the machine stops. -/
  | hostActInsideCommand
  /-- Raised by `hostTurn`: what the host issues is not one command word with exactly its payload (H1, H4). Safe: the
  machine stops. -/
  | notOneCommand
  /-- Raised by `hostTurn`: an act at a point of the tick where R237 has none (H3): SampleInput but after the callbacks,
  Publish but after SampleInput, a command between the two, a tick inside a tick. Safe: the machine stops. -/
  | outsideItsPlace
deriving DecidableEq, Repr

/-- Why a step has no meaning. -/
inductive Refusal where
  /-- Raised by an arm of `exec` that has no meaning yet. Safe: the machine stops. No arm raises it now. -/
  | notModelled (mnemonic : String)
deriving DecidableEq, Repr

/-- What a meaning answers. -/
abbrev Result := Host.Outcome State Fault Refusal

/-- The machine right after reset, that is after construction (R46, R280): nothing is listed in M, so every byte reads
as its reset contents. PAL_BASE is the value the spec takes (R7, D6). Nothing waits on the port, no tick has begun,
the host has nothing planned and nothing has been answered or published (log entries 4, 5 and 16: DESIGN CHOICE). -/
def State.reset : State where
  palBase := .x2401
  mem := []
  constructed := true
  port := []
  phase := .betweenTicks
  moves := []
  responses := []
  published := []

end Sys2Proof.Machine
end

