-- ==== Sys2Proof/Machine/AddressMap.lean ====
section
/-! DEFINITION. The address map of M (10_state.md R25): the fixed addresses and the regions as intervals. -/

namespace Sys2Proof.Machine

/-- First byte of the palette-select plane (R7). -/
def palBaseAddr : Config.PalBase → Nat
  | .x2400 => 0x2400
  | .x2401 => 0x2401

/-- Bytes of the colour-index plane, which starts at 0x0000 (R6, R26). -/
def colourPlaneSize : Nat := 0x2400

/-- Bytes of the palette-select plane (R6, R27). -/
def palettePlaneSize : Nat := 0x1200

/-- FRAME_END, the exclusive end of the published region (R8, R236). -/
def frameEnd (pb : Config.PalBase) : Nat := palBaseAddr pb + palettePlaneSize

/-- PAL (R28). -/
def addrPal : Nat := 0x3601

/-- BG (R29). -/
def addrBg : Nat := 0x3602

/-- CAMX, two bytes (R30). -/
def addrCamX : Nat := 0x3603

/-- CAMY, two bytes (R31). -/
def addrCamY : Nat := 0x3605

/-- FRAMES, three bytes (R32). -/
def addrFrames : Nat := 0x3607

/-- CLIPX, first of the four clip bytes (R33). -/
def addrClip : Nat := 0x360A

/-- MOUSEX, first of the 58 input bytes (R36, R39). -/
def addrInput : Nat := 0x360E

/-- First byte of the built-in sprite data, 0x901 bytes (R40). -/
def addrBuiltin : Nat := 0x3648

/-- First byte of the user sprite sheet (R41). -/
def addrUserSprites : Nat := 0x3F49

/-- Bytes a load writes, the only accepted LEN (R230). -/
def spriteSheetSize : Nat := 0x3000

/-- The rows of the region table (R25). `gap` is the one unassigned byte beside the palette-select plane, `upper` the
unassigned bytes from 0x6F4A. -/
inductive Region where
  | colourPlane | palettePlane | gap | pal | bg | camX | camY | frames | clip | mouse | mouseButtons | keys
  | builtinSprites | userSprites | upper
deriving DecidableEq, Repr

/-- First address of a region (R25). -/
def Region.first (pb : Config.PalBase) : Region → Nat
  | .colourPlane => 0x0000
  | .palettePlane => palBaseAddr pb
  | .gap => match pb with | .x2401 => 0x2400 | .x2400 => 0x3600
  | .pal => 0x3601
  | .bg => 0x3602
  | .camX => 0x3603
  | .camY => 0x3605
  | .frames => 0x3607
  | .clip => 0x360A
  | .mouse => 0x360E
  | .mouseButtons => 0x3610
  | .keys => 0x3611
  | .builtinSprites => 0x3648
  | .userSprites => 0x3F49
  | .upper => 0x6F4A

/-- Number of bytes of a region (R25). -/
def Region.size : Region → Nat
  | .colourPlane => 0x2400
  | .palettePlane => 0x1200
  | .gap => 1
  | .pal => 1
  | .bg => 1
  | .camX => 2
  | .camY => 2
  | .frames => 3
  | .clip => 4
  | .mouse => 2
  | .mouseButtons => 1
  | .keys => 55
  | .builtinSprites => 0x901
  | .userSprites => 0x3001
  | .upper => 0x90B6

/-- Does a region hold an address (R25)? -/
abbrev Region.holds (pb : Config.PalBase) (r : Region) (a : Nat) : Prop :=
  r.first pb ≤ a ∧ a < r.first pb + r.size

end Sys2Proof.Machine
end

