-- ==== Sys2Proof/Machine/Ops.lean ====
section
/-! DEFINITION. The named operations over M (00_scope.md R10), the response of a command and its rejection
(00_scope.md R11, 60_exceptions.md R250 to R257). -/

namespace Sys2Proof.Machine

/-! ## M as a list of cells -/

/-- What an address reads as that nothing has written: its reset contents (R46), BUILTIN in the built-in sprite region
(R40, a byte past the payload is 0x00) and 0x00 everywhere else. -/
def Memory.unlisted (a : Nat) : Byte :=
  if 0x3648 ≤ a ∧ a ≤ 0x3F48 then Config.builtin.getD (a - 0x3648) 0 else 0

/-- The canonical form from address `lo` on: addresses strictly rising and inside M, no entry equal to what an unlisted
address reads as. -/
def Memory.wfFrom : Nat → Memory → Bool
  | _, [] => true
  | lo, (a, v) :: m => decide (lo ≤ a) && decide (a < 0x10000) && (v != Memory.unlisted a) && Memory.wfFrom (a + 1) m

/-- The canonical form of a memory. -/
def Memory.wf (m : Memory) : Bool := Memory.wfFrom 0 m

/-- M[a] (R10). -/
def Memory.read : Memory → Nat → Byte
  | [], a => Memory.unlisted a
  | (x, v) :: m, a => if x = a then v else Memory.read m a

/-- One cell in front, unless the address would read so anyway. -/
def Memory.put (a : Nat) (v : Byte) (m : Memory) : Memory :=
  if v = Memory.unlisted a then m else (a, v) :: m

/-- Write bytes at rising addresses from `a` on, into a memory whose first address is at least `a`. -/
def Memory.overwrite (a : Nat) : List Byte → Memory → Memory
  | [], m => m
  | b :: bs, [] => Memory.put a b (Memory.overwrite (a + 1) bs [])
  | b :: bs, (x, v) :: m =>
    if x = a then Memory.put a b (Memory.overwrite (a + 1) bs m)
    else Memory.put a b (Memory.overwrite (a + 1) bs ((x, v) :: m))

/-- M[a + k] <- bs[k] for each k (R10), in one pass that keeps the canonical form. -/
def Memory.store (a : Nat) (bs : List Byte) : Memory → Memory
  | [] => Memory.overwrite a bs []
  | (x, v) :: m => if x < a then (x, v) :: Memory.store a bs m else Memory.overwrite a bs ((x, v) :: m)

/-- The cells below an address: a copy of the bytes from 0 up to it. -/
def Memory.below (e : Nat) (m : Memory) : Memory := m.filter fun c => decide (c.1 < e)

/-! ## MemRead and MemWrite (R10) -/

/-- MemRead(addr, n): big-endian, the byte at the lowest address the most significant (R10, R60). -/
def memRead (m : Memory) (addr n : Nat) : Nat :=
  (List.range n).foldl (fun acc i => acc * 256 + (m.read (addr + i)).toNat) 0

/-- The n bytes of `v mod 2^(8n)`, most significant first: byte i is `(v >> 8*(n-1-i))[7:0]` (R10). -/
def bytesBE (n v : Nat) : List Byte :=
  (List.range n).map fun i => BitVec.ofNat 8 (v >>> (8 * (n - 1 - i)))

/-- MemWrite(addr, n, v) (R10). -/
def memWrite (m : Memory) (addr n v : Nat) : Memory := m.store addr (bytesBE n v)

/-! ## Updates of the state: M and the response -/

/-- The state with another memory. -/
def State.setMem (s : State) (m : Memory) : State := { s with mem := m }

/-- respond(status, data): the one response of a command (R11, R97). -/
def respond (st : Status) (data : BitVec 24) (s : State) : State :=
  { s with responses := s.responses ++ [⟨st, data⟩] }

/-- A rejection, the block's only exception: "It saves nothing, changes no mode or mask, and transfers control nowhere
… It returns the status in the response and leaves M exactly as it was before the command" (R257); data is 0 (R97,
R250). There is no return operation, "because nothing was entered" (R259). -/
def reject (st : Status) (s : State) : State := respond st 0 s

end Sys2Proof.Machine
end

