-- ==== Sys2Proof/Machine/Registers.lean ====
section
/-! DEFINITION. The register names of 10_state.md: "not storage of their own; each is shorthand for a MemRead or
MemWrite at its fixed address" (00_scope.md R10). -/

namespace Sys2Proof.Machine

/-- PAL (R28). -/
def State.pal (s : State) : Byte := s.mem.read addrPal

/-- A, bits 7:4 of PAL (R28). -/
def State.palA (s : State) : BitVec 4 := s.pal.extractLsb' 4 4

/-- B, bits 3:0 of PAL (R28). -/
def State.palB (s : State) : BitVec 4 := s.pal.extractLsb' 0 4

/-- BG (R29). -/
def State.bg (s : State) : Byte := s.mem.read addrBg

/-- BGC, bits 7:5 of BG (R29). -/
def State.bgColour (s : State) : BitVec 3 := s.bg.extractLsb' 5 3

/-- CAMX = MemRead(0x3603, 2), unsigned (R30). -/
def State.camX (s : State) : Nat := memRead s.mem addrCamX 2

/-- CAMY = MemRead(0x3605, 2), unsigned (R31). -/
def State.camY (s : State) : Nat := memRead s.mem addrCamY 2

/-- FRAMES = MemRead(0x3607, 3), 0..16777215 (R32). -/
def State.frameCount (s : State) : Nat := memRead s.mem addrFrames 3

/-- CLIPX (R33). -/
def State.clipX (s : State) : Byte := s.mem.read addrClip

/-- CLIPY (R33). -/
def State.clipY (s : State) : Byte := s.mem.read (addrClip + 1)

/-- CLIPW (R33). -/
def State.clipW (s : State) : Byte := s.mem.read (addrClip + 2)

/-- CLIPH (R33). -/
def State.clipH (s : State) : Byte := s.mem.read (addrClip + 3)

/-- MOUSEX (R36). -/
def State.mouseX (s : State) : Byte := s.mem.read addrInput

/-- MOUSEY (R36). -/
def State.mouseY (s : State) : Byte := s.mem.read (addrInput + 1)

/-- MBTN (R37). -/
def State.mouseButtons (s : State) : Byte := s.mem.read (addrInput + 2)

/-- KEYS[i] at 0x3611 + i (R38). -/
def State.key (s : State) (i : Fin 55) : Byte := s.mem.read (addrInput + 3 + i.val)

end Sys2Proof.Machine
end

