-- ==== Sys2Proof/Machine/FrameClock.lean ====
section
/-! DEFINITION. FrameClock (44_frame_clock.md): advance and frames. -/

namespace Sys2Proof.Machine

/-- advance(): FRAMES + 1 modulo 2^24, "wrapping silently" (R220). -/
def execAdvance (s : State) : Result :=
  .next (respond .ok 0 (s.setMem (memWrite s.mem addrFrames 3 ((s.frameCount + 1) % 2 ^ 24))))

/-- frames(): the 24-bit value of FRAMES (R221). -/
def execFrames (s : State) : Result :=
  .next (respond .ok (BitVec.ofNat 24 s.frameCount) s)

end Sys2Proof.Machine
end

