-- ==== Sys2Proof/Machine/Operands.lean ====
section
/-! DEFINITION. How a command reads an operand field (30_encoding.md R90, R94, R96). -/

namespace Sys2Proof.Machine

/-- sext_16(f): the field as a two's complement integer, -32768..32767 (R10, R94). -/
def sext16 (f : Field) : Int :=
  if f.toNat < 0x8000 then (f.toNat : Int) else (f.toNat : Int) - 0x10000

/-- `a[3:0]`, the palette value (R96; D15 for a value above 15). -/
def lowNibble (f : Field) : BitVec 4 := f.extractLsb' 0 4

/-- `field[7:0]`, a clip value (R96). -/
def lowByte (f : Field) : Byte := f.extractLsb' 0 8

/-- `col[1:0]`, the colour index (R90). -/
def colourIndex (col : Byte) : BitVec 2 := col.extractLsb' 0 2

/-- `col[2]`, the bank (R90). -/
def colourBank (col : Byte) : BitVec 1 := col.extractLsb' 2 1

/-- `col[2:0]`, the whole colour; bits 7:3 have no effect on any operation (R90, R102). -/
def colourBits (col : Byte) : BitVec 3 := col.extractLsb' 0 3

end Sys2Proof.Machine
end

