-- ==== Sys2Proof/Machine/PaletteRegisters.lean ====
section
/-! DEFINITION. PaletteRegisters (41_palette_registers.md): setPaletteA, setPaletteB, getPalettes, setBackground. -/

namespace Sys2Proof.Machine

/-- setPaletteA(value): the high nibble of PAL (R140). -/
def execSetPaletteA (value : Field) (s : State) : Result :=
  .next (respond .ok 0
    (s.setMem (s.mem.store addrPal [(s.pal &&& 0x0F#8) ||| ((lowNibble value).setWidth 8 <<< 4)])))

/-- setPaletteB(value): the low nibble of PAL (R141). -/
def execSetPaletteB (value : Field) (s : State) : Result :=
  .next (respond .ok 0
    (s.setMem (s.mem.store addrPal [(s.pal &&& 0xF0#8) ||| (lowNibble value).setWidth 8])))

/-- getPalettes(): the byte PAL, that is A ‖ B (R142). -/
def execGetPalettes (s : State) : Result :=
  .next (respond .ok (s.pal.setWidth 24) s)

/-- setBackground(color): bits 7:5 of BG, bits 4:0 untouched (R143). -/
def execSetBackground (col : Byte) (s : State) : Result :=
  .next (respond .ok 0
    (s.setMem (s.mem.store addrBg [(s.bg &&& 0x1F#8) ||| ((colourBits col).setWidth 8 <<< 5)])))

end Sys2Proof.Machine
end

