-- ==== Sys2Proof/Machine/PixelCodec.lean ====
section
/-! DEFINITION. PixelCodec (40_pixel_codec.md): Plot, Peek, setPixel and getPixel, over the packing of
20_memory.md R62, R63 and R67. -/

namespace Sys2Proof.Machine

/-- The bounds test of Plot and getPixel (R120, R123): the canvas is 0..191 in each axis. -/
def inCanvas (rx ry : Int) : Bool := decide (0 ≤ rx ∧ rx ≤ 191 ∧ 0 ≤ ry ∧ ry ≤ 191)

/-- ca, the byte of the colour-index plane that holds a pixel (R67). -/
def colourAddr (x y : Nat) : Nat := x / 4 + y * 48

/-- cs, the shift of a pixel's slot in that byte (R62, R67). -/
def colourShift (x : Nat) : Nat := (x % 4) * 2

/-- pa, the byte of the palette-select plane that holds a pixel (R67). -/
def bankAddr (pb : Config.PalBase) (x y : Nat) : Nat := palBaseAddr pb + x / 8 + y * 24

/-- ps, the bit of a pixel in that byte (R63, R67). -/
def bankShift (x : Nat) : Nat := x % 8

/-- Replace the 2-bit slot at shift `cs` (R120). -/
def setSlot (b : Byte) (cs : Nat) (index : BitVec 2) : Byte :=
  (b &&& ~~~(0b11#8 <<< cs)) ||| (index.setWidth 8 <<< cs)

/-- Replace the bit at position `ps` (R120; the corrected mask of D11). -/
def setBit (b : Byte) (ps : Nat) (bank : BitVec 1) : Byte :=
  (b &&& ~~~(1#8 <<< ps)) ||| (bank.setWidth 8 <<< ps)

/-- The colour-plane step of Plot, for a pixel on the canvas (R120). -/
def plotIndex (x y : Nat) (col : Byte) (m : Memory) : Memory :=
  m.store (colourAddr x y) [setSlot (m.read (colourAddr x y)) (colourShift x) (colourIndex col)]

/-- The palette-plane step of Plot, for a pixel on the canvas (R120). -/
def plotBank (pb : Config.PalBase) (x y : Nat) (col : Byte) (m : Memory) : Memory :=
  m.store (bankAddr pb x y) [setBit (m.read (bankAddr pb x y)) (bankShift x) (colourBank col)]

/-- Plot(rx, ry, col): both planes, or nothing at all when the pixel is off the canvas (R120; D8). -/
def plot (pb : Config.PalBase) (rx ry : Int) (col : Byte) (m : Memory) : Memory :=
  if inCanvas rx ry then plotBank pb rx.toNat ry.toNat col (plotIndex rx.toNat ry.toNat col m) else m

/-- Plot every pixel of a list, in order, in one colour. -/
def plotAll (pb : Config.PalBase) (col : Byte) (ps : List (Int × Int)) (m : Memory) : Memory :=
  ps.foldl (fun m p => plot pb p.1 p.2 col m) m

/-- The index Peek extracts: `(M[ca] >> cs)[1:0]` (R122). -/
def peekIndex (x y : Nat) (m : Memory) : BitVec 2 :=
  (m.read (colourAddr x y) >>> colourShift x).extractLsb' 0 2

/-- The bank Peek extracts: `(M[pa] >> ps)[0]` (R122). -/
def peekBank (pb : Config.PalBase) (x y : Nat) (m : Memory) : BitVec 1 :=
  (m.read (bankAddr pb x y) >>> bankShift x).extractLsb' 0 1

/-- Peek(rx, ry), for a pixel on the canvas: `index or (bank << 2)` (R122; the OR of D11). -/
def peek (pb : Config.PalBase) (x y : Nat) (m : Memory) : Byte :=
  (peekIndex x y m).setWidth 8 ||| ((peekBank pb x y m).setWidth 8 <<< 2)

/-- setPixel(x, y, color): Plot at raw coordinates, then OK (R121). -/
def execSetPixel (x y : Field) (col : Byte) (s : State) : Result :=
  .next (respond .ok 0 (s.setMem (plot s.palBase (sext16 x) (sext16 y) col s.mem)))

/-- getPixel(x, y): the colour of the pixel, or OUT_OF_RANGE with M neither read nor written (R123; D9). -/
def execGetPixel (x y : Field) (s : State) : Result :=
  if inCanvas (sext16 x) (sext16 y) then
    .next (respond .ok ((peek s.palBase (sext16 x).toNat (sext16 y).toNat s.mem).setWidth 24) s)
  else .next (reject .outOfRange s)

end Sys2Proof.Machine
end

