-- ==== Sys2Proof/Machine/Rasterizer.lean ====
section
/-! DEFINITION. Rasterizer (43_rasterizer.md): drawRectBorder, fillRect, drawLine, clearScreen. A drawing command plots
the pixels of its shape that lie on the canvas; a pixel off the canvas would be dropped by Plot (R120), so the lists
here leave it out and need no 32767 by 32767 loop ("A model need not iterate", R185). The spec's own loops stand in
Machine/Loops.lean, and an obligation says the two agree (log entry 11). -/

namespace Sys2Proof.Machine

/-- The canvas coordinates of the run `start .. start + len - 1`, rising; empty when `len <= 0`. -/
def canvasSpan (start len : Int) : List Int :=
  ((List.range 192).map Int.ofNat).filter fun r => decide (start ≤ r ∧ r < start + len)

/-- The canvas pixels of the box whose first raw corner is (x, y) (R185). -/
def rectPixels (x y w h : Int) : List (Int × Int) :=
  (canvasSpan y h).flatMap fun ry => (canvasSpan x w).map fun rx => (rx, ry)

/-- Those of them on its border: "rx is x - cx or x - cx + w - 1, or ry is y - cy or y - cy + h - 1" (R185), here with
(x, y) the raw corner. -/
def borderPixels (x y w h : Int) : List (Int × Int) :=
  (rectPixels x y w h).filter fun p => decide (p.1 = x ∨ p.1 = x + w - 1 ∨ p.2 = y ∨ p.2 = y + h - 1)

/-- LineY(y1, dy, dx, k) = y1 + floor(dy*k/dx), for dx > 0 (R188; D12). `/` on Int with a positive divisor is the
floor of R9. -/
def lineY (y1 dy dx k : Int) : Int := y1 + dy * k / dx

/-- A line that is not vertical, its end points in order x1 < x2, on the canvas columns: one pixel per column, x2
excluded (R186). -/
def widePixels (x1 y1 x2 y2 cx cy : Int) : List (Int × Int) :=
  (canvasSpan (x1 - cx) (x2 - x1)).map fun rx => (rx, lineY y1 (y2 - y1) (x2 - x1) (rx + cx - x1) - cy)

/-- A vertical line, its end points in order y1 <= y2, on the canvas rows: y2 excluded (R186; D13). -/
def tallPixels (x y1 y2 cx cy : Int) : List (Int × Int) :=
  (canvasSpan (y1 - cy) (y2 - y1)).map fun ry => (x - cx, ry)

/-- The raw pixels of drawLine, in the canvas columns of a wide line or the canvas rows of a vertical one (R186). -/
def linePixels (x1 y1 x2 y2 cx cy : Int) : List (Int × Int) :=
  if x1 ≠ x2 then
    if x1 > x2 then widePixels x2 y2 x1 y1 cx cy else widePixels x1 y1 x2 y2 cx cy
  else
    if y1 > y2 then tallPixels x1 y2 y1 cx cy else tallPixels x1 y1 y2 cx cy

/-- drawRectBorder(x, y, w, h, color) (R182): the border of the box, moved by the camera (R180). -/
def execDrawRectBorder (x y w h : Field) (col : Byte) (s : State) : Result :=
  .next (respond .ok 0
    (s.setMem (plotAll s.palBase col
        (borderPixels (sext16 x - s.camX) (sext16 y - s.camY) (sext16 w) (sext16 h)) s.mem)))

/-- fillRect(x, y, w, h, color) (R184): every pixel of the box, moved by the camera (R180). -/
def execFillRect (x y w h : Field) (col : Byte) (s : State) : Result :=
  .next (respond .ok 0
    (s.setMem (plotAll s.palBase col
        (rectPixels (sext16 x - s.camX) (sext16 y - s.camY) (sext16 w) (sext16 h)) s.mem)))

/-- drawLine(x1, y1, x2, y2, color) (R186), moved by the camera (R180). -/
def execDrawLine (x1 y1 x2 y2 : Field) (col : Byte) (s : State) : Result :=
  .next (respond .ok 0
    (s.setMem (plotAll s.palBase col
        (linePixels (sext16 x1) (sext16 y1) (sext16 x2) (sext16 y2) s.camX s.camY) s.mem)))

/-- fillbyte, the index in all four slots (R189). -/
def fillByte (index : BitVec 2) : Byte :=
  index.setWidth 8 ||| (index.setWidth 8 <<< 2) ||| (index.setWidth 8 <<< 4) ||| (index.setWidth 8 <<< 6)

/-- Both planes in one flat colour: every colour-plane byte the index in all four slots, every palette-plane byte all
ones or all zeros (R189). -/
def clearTo (pb : Config.PalBase) (index : BitVec 2) (bank : BitVec 1) (m : Memory) : Memory :=
  (m.store 0 (List.replicate colourPlaneSize (fillByte index))).store (palBaseAddr pb)
    (List.replicate palettePlaneSize (if bank = 1 then 0xFF else 0x00))

/-- clearScreen(), alias Cls: both planes to the background colour BGC, whatever the camera and the clip (R189). -/
def execClearScreen (s : State) : Result :=
  .next (respond .ok 0
    (s.setMem (clearTo s.palBase (s.bgColour.extractLsb' 0 2) (s.bgColour.extractLsb' 2 1) s.mem)))

end Sys2Proof.Machine
end

