-- ==== Sys2Proof/Machine/SpriteLoad.lean ====
section
/-! DEFINITION. The bulk load of the user sprite sheet (45_host_interface.md R230). -/

namespace Sys2Proof.Machine

/-- loadSpriteSheet(P, LEN): BAD_LENGTH with nothing written unless LEN is 0x3000, else the payload to 0x3F49..0x6F48
(R230, R252). The payload has left the port with the command word, accepted or not (R103). -/
def execLoadSpriteSheet (len : BitVec 32) (payload : List Byte) (s : State) : Result :=
  if len.toNat ≠ spriteSheetSize then .next (reject .badLength s)
  else .next (respond .ok 0 (s.setMem (s.mem.store addrUserSprites (payload.take spriteSheetSize))))

end Sys2Proof.Machine
end

