-- ==== Sys2Proof/Machine/Viewport.lean ====
section
/-! DEFINITION. ViewportState (42_viewport.md): setCamera, setClip, resetClip. The clip rectangle is stored and read by
nothing (R164). -/

namespace Sys2Proof.Machine

/-- setCamera(x, y): two 16-bit big-endian stores, the fields as they stand (R160). -/
def execSetCamera (x y : Field) (s : State) : Result :=
  .next (respond .ok 0
    (s.setMem (memWrite (memWrite s.mem addrCamX 2 x.toNat) addrCamY 2 y.toNat)))

/-- setClip(x, y, w, h): the low byte of each (R161). -/
def execSetClip (x y w h : Field) (s : State) : Result :=
  .next (respond .ok 0
    (s.setMem (s.mem.store addrClip [lowByte x, lowByte y, lowByte w, lowByte h])))

/-- resetClip(): the full canvas, (0, 0, 192, 192) (R162; D30). -/
def execResetClip (s : State) : Result :=
  .next (respond .ok 0 (s.setMem (s.mem.store addrClip [0, 0, 192, 192])))

end Sys2Proof.Machine
end

