-- ==== Sys2Proof/Syntax.lean ====
section
/-! DEFINITION. The commands of the block (30_encoding.md R99): one constructor per row of the opcode table, holding
exactly the fields its format uses (R95). A field a format does not use is ignored (R101) and stands nowhere here. -/

namespace Sys2Proof

/-- The sixteen commands. Operands are the raw fields of the command word; how a command reads one (R94, R96) is in
Machine/Operands.lean. `Cls` is another name of clearScreen (R105). -/
inductive Instr where
  /-- op 0x10, format XYK (R121). -/
  | setPixel (x y : Field) (col : Byte)
  /-- op 0x11, format XY (R123). -/
  | getPixel (x y : Field)
  /-- op 0x20, format V (R140). -/
  | setPaletteA (value : Field)
  /-- op 0x21, format V (R141). -/
  | setPaletteB (value : Field)
  /-- op 0x22, format Z (R142). -/
  | getPalettes
  /-- op 0x23, format K (R143). -/
  | setBackground (col : Byte)
  /-- op 0x30, format XY (R160). -/
  | setCamera (x y : Field)
  /-- op 0x31, format XYWH (R161). -/
  | setClip (x y w h : Field)
  /-- op 0x32, format Z (R162). -/
  | resetClip
  /-- op 0x40, format XYWHK (R182). -/
  | drawRectBorder (x y w h : Field) (col : Byte)
  /-- op 0x41, format XYWHK (R184). -/
  | fillRect (x y w h : Field) (col : Byte)
  /-- op 0x42, format XYWHK (R186). -/
  | drawLine (x1 y1 x2 y2 : Field) (col : Byte)
  /-- op 0x43, format Z (R189). -/
  | clearScreen
  /-- op 0x50, format Z (R220). -/
  | advance
  /-- op 0x51, format Z (R221). -/
  | frames
  /-- op 0x60, format L (R230): LEN, then the LEN payload bytes that follow the word on the command port (R103). -/
  | loadSpriteSheet (len : BitVec 32) (payload : List Byte)
deriving DecidableEq, Repr

end Sys2Proof
end

