-- ==== Sys2Proof/Machine/Dispatch.lean ====
section
/-! DEFINITION. One arm per command: what executing it does (30_encoding.md R99). -/

namespace Sys2Proof.Machine

def exec (i : Instr) (s : State) : Host.Outcome State Fault Refusal :=
  match i with
  -- PixelCodec
  | .setPixel x y col => Sys2Proof.Machine.execSetPixel x y col s
  | .getPixel x y => Sys2Proof.Machine.execGetPixel x y s
  -- PaletteRegisters
  | .setPaletteA value => Sys2Proof.Machine.execSetPaletteA value s
  | .setPaletteB value => Sys2Proof.Machine.execSetPaletteB value s
  | .getPalettes => Sys2Proof.Machine.execGetPalettes s
  | .setBackground col => Sys2Proof.Machine.execSetBackground col s
  -- ViewportState
  | .setCamera x y => Sys2Proof.Machine.execSetCamera x y s
  | .setClip x y w h => Sys2Proof.Machine.execSetClip x y w h s
  | .resetClip => Sys2Proof.Machine.execResetClip s
  -- Rasterizer
  | .drawRectBorder x y w h col => Sys2Proof.Machine.execDrawRectBorder x y w h col s
  | .fillRect x y w h col => Sys2Proof.Machine.execFillRect x y w h col s
  | .drawLine x1 y1 x2 y2 col => Sys2Proof.Machine.execDrawLine x1 y1 x2 y2 col s
  | .clearScreen => Sys2Proof.Machine.execClearScreen s
  -- FrameClock
  | .advance => Sys2Proof.Machine.execAdvance s
  | .frames => Sys2Proof.Machine.execFrames s
  -- bulk load
  | .loadSpriteSheet len payload => Sys2Proof.Machine.execLoadSpriteSheet len payload s

end Sys2Proof.Machine
end

