-- ==== Sys2Proof/WellFormed.lean ====
section
/-! DEFINITION. Which terms of `Instr` stand for a command on the port. Every value of every operand field is legal
(30_encoding.md R100 to R102), so one check is left: the payload of a load has the length its word announces
(R103, 45_host_interface.md R238 H4). -/

namespace Sys2Proof

/-- A command as the port can carry it: a load is followed by exactly LEN payload bytes (R103). -/
def Instr.wf : Instr → Bool
  | .setPixel _ _ _ => true
  | .getPixel _ _ => true
  | .setPaletteA _ => true
  | .setPaletteB _ => true
  | .getPalettes => true
  | .setBackground _ => true
  | .setCamera _ _ => true
  | .setClip _ _ _ _ => true
  | .resetClip => true
  | .drawRectBorder _ _ _ _ _ => true
  | .fillRect _ _ _ _ _ => true
  | .drawLine _ _ _ _ _ => true
  | .clearScreen => true
  | .advance => true
  | .frames => true
  | .loadSpriteSheet len payload => payload.length == len.toNat

end Sys2Proof
end

