-- ==== Sys2Proof/Decode.lean ====
section
/-! DEFINITION. The decoder of the command port and the encoder (30_encoding.md R92, R93, R95, R99 to R103). The decoder
is total on any bytes: it answers a command with the bytes behind it, an opcode outside the map, or that the bytes so
far are only the beginning of a command. -/

namespace Sys2Proof

/-! ## The command word (R92) and its transfer (R93) -/

/-- Bits 79:72, the operation code (R92). -/
def fieldOp (w : CommandWord) : Byte := w.extractLsb' 72 8

/-- Bits 71:56, the first operand (R92). -/
def fieldA (w : CommandWord) : Field := w.extractLsb' 56 16

/-- Bits 55:40, the second operand (R92). -/
def fieldB (w : CommandWord) : Field := w.extractLsb' 40 16

/-- Bits 39:24, the third operand (R92). -/
def fieldC (w : CommandWord) : Field := w.extractLsb' 24 16

/-- Bits 23:8, the fourth operand (R92). -/
def fieldD (w : CommandWord) : Field := w.extractLsb' 8 16

/-- Bits 7:0, the colour byte (R92). -/
def fieldCol (w : CommandWord) : Byte := w.extractLsb' 0 8

/-- LEN = c ‖ d, 32 bits, c the high half (R103). -/
def fieldLen (w : CommandWord) : BitVec 32 := fieldC w ++ fieldD w

/-- The word as its six fields make it, op in the most significant position (R92). -/
def packWord (op : Byte) (a b c d : Field) (col : Byte) : CommandWord :=
  op ++ a ++ b ++ c ++ d ++ col

/-- The ten bytes of a word as they travel, most significant byte first (R93). -/
def wordBytes (w : CommandWord) : List Byte :=
  [w.extractLsb' 72 8, w.extractLsb' 64 8, w.extractLsb' 56 8, w.extractLsb' 48 8, w.extractLsb' 40 8,
   w.extractLsb' 32 8, w.extractLsb' 24 8, w.extractLsb' 16 8, w.extractLsb' 8 8, w.extractLsb' 0 8]

/-- The word that ten bytes of the port carry: byte 0 = op, bytes 1 and 2 = a (high byte first), and so on (R93). -/
def wordOfBytes (b0 b1 b2 b3 b4 b5 b6 b7 b8 b9 : Byte) : CommandWord :=
  packWord b0 (b1 ++ b2) (b3 ++ b4) (b5 ++ b6) (b7 ++ b8) b9

/-! ## Decoding -/

/-- What the bytes on the command port are. -/
inductive Decoded where
  /-- A whole command, and the bytes behind it. -/
  | instr (i : Instr) (rest : List Byte)
  /-- A word whose op is not in the opcode map (R100), and the bytes behind it: no payload follows it (R251). -/
  | illegal (op : Byte) (rest : List Byte)
  /-- Fewer than ten bytes, or a load word whose payload is not all there yet (R103). -/
  | incomplete
deriving DecidableEq, Repr

/-- Are there at least `n` bytes? -/
def hasBytes : Nat → List Byte → Bool
  | 0, _ => true
  | _ + 1, [] => false
  | n + 1, _ :: bs => hasBytes n bs

/-- The command a word stands for (R99), with the bytes that follow the word on the port. Only loadSpriteSheet takes
some of them, LEN of them (R103). -/
def decodeWord (w : CommandWord) (rest : List Byte) : Decoded :=
  match fieldOp w with
  | 0x10#8 => .instr (.setPixel (fieldA w) (fieldB w) (fieldCol w)) rest
  | 0x11#8 => .instr (.getPixel (fieldA w) (fieldB w)) rest
  | 0x20#8 => .instr (.setPaletteA (fieldA w)) rest
  | 0x21#8 => .instr (.setPaletteB (fieldA w)) rest
  | 0x22#8 => .instr .getPalettes rest
  | 0x23#8 => .instr (.setBackground (fieldCol w)) rest
  | 0x30#8 => .instr (.setCamera (fieldA w) (fieldB w)) rest
  | 0x31#8 => .instr (.setClip (fieldA w) (fieldB w) (fieldC w) (fieldD w)) rest
  | 0x32#8 => .instr .resetClip rest
  | 0x40#8 => .instr (.drawRectBorder (fieldA w) (fieldB w) (fieldC w) (fieldD w) (fieldCol w)) rest
  | 0x41#8 => .instr (.fillRect (fieldA w) (fieldB w) (fieldC w) (fieldD w) (fieldCol w)) rest
  | 0x42#8 => .instr (.drawLine (fieldA w) (fieldB w) (fieldC w) (fieldD w) (fieldCol w)) rest
  | 0x43#8 => .instr .clearScreen rest
  | 0x50#8 => .instr .advance rest
  | 0x51#8 => .instr .frames rest
  | 0x60#8 =>
    if hasBytes (fieldLen w).toNat rest then
      .instr (.loadSpriteSheet (fieldLen w) (rest.take (fieldLen w).toNat)) (rest.drop (fieldLen w).toNat)
    else .incomplete
  | op => .illegal op rest

/-- The decoder of the command port, on any bytes (R93, R99, R100, R103). -/
def decode : List Byte → Decoded
  | b0 :: b1 :: b2 :: b3 :: b4 :: b5 :: b6 :: b7 :: b8 :: b9 :: rest =>
    decodeWord (wordOfBytes b0 b1 b2 b3 b4 b5 b6 b7 b8 b9) rest
  | _ => .incomplete

/-- Are the bytes exactly one command: a word, legal or not, with the payload it announces and nothing behind it (R93,
R103; 45_host_interface.md R238 H1, H4)? -/
def isOneCommand (bytes : List Byte) : Bool :=
  match decode bytes with
  | .instr _ rest => rest.isEmpty
  | .illegal _ rest => rest.isEmpty
  | .incomplete => false

/-! ## Encoding -/

/-- The operation code of a command (R99). -/
def opcode : Instr → Byte
  | .setPixel _ _ _ => 0x10
  | .getPixel _ _ => 0x11
  | .setPaletteA _ => 0x20
  | .setPaletteB _ => 0x21
  | .getPalettes => 0x22
  | .setBackground _ => 0x23
  | .setCamera _ _ => 0x30
  | .setClip _ _ _ _ => 0x31
  | .resetClip => 0x32
  | .drawRectBorder _ _ _ _ _ => 0x40
  | .fillRect _ _ _ _ _ => 0x41
  | .drawLine _ _ _ _ _ => 0x42
  | .clearScreen => 0x43
  | .advance => 0x50
  | .frames => 0x51
  | .loadSpriteSheet _ _ => 0x60

/-- The command word of a command, by its format (R95, R99); unused fields are zero (R101, "An assembler writes zeros
there"). -/
def encodeWord (i : Instr) : CommandWord :=
  match i with
  | .setPixel x y col => packWord (opcode i) x y 0 0 col
  | .getPixel x y => packWord (opcode i) x y 0 0 0
  | .setPaletteA v => packWord (opcode i) v 0 0 0 0
  | .setPaletteB v => packWord (opcode i) v 0 0 0 0
  | .getPalettes => packWord (opcode i) 0 0 0 0 0
  | .setBackground col => packWord (opcode i) 0 0 0 0 col
  | .setCamera x y => packWord (opcode i) x y 0 0 0
  | .setClip x y w h => packWord (opcode i) x y w h 0
  | .resetClip => packWord (opcode i) 0 0 0 0 0
  | .drawRectBorder x y w h col => packWord (opcode i) x y w h col
  | .fillRect x y w h col => packWord (opcode i) x y w h col
  | .drawLine x1 y1 x2 y2 col => packWord (opcode i) x1 y1 x2 y2 col
  | .clearScreen => packWord (opcode i) 0 0 0 0 0
  | .advance => packWord (opcode i) 0 0 0 0 0
  | .frames => packWord (opcode i) 0 0 0 0 0
  | .loadSpriteSheet len _ => packWord (opcode i) 0 0 (len.extractLsb' 16 16) (len.extractLsb' 0 16) 0

/-- The bytes that follow the command word: a load's payload, nothing for any other command (R103). -/
def payloadOf : Instr → List Byte
  | .setPixel _ _ _ => []
  | .getPixel _ _ => []
  | .setPaletteA _ => []
  | .setPaletteB _ => []
  | .getPalettes => []
  | .setBackground _ => []
  | .setCamera _ _ => []
  | .setClip _ _ _ _ => []
  | .resetClip => []
  | .drawRectBorder _ _ _ _ _ => []
  | .fillRect _ _ _ _ _ => []
  | .drawLine _ _ _ _ _ => []
  | .clearScreen => []
  | .advance => []
  | .frames => []
  | .loadSpriteSheet _ payload => payload

/-- The bytes of a well-formed command on the port: its word, then its payload (R93, R103). -/
def encode (i : Instr) : List Byte := wordBytes (encodeWord i) ++ payloadOf i

/-! ## A word of the opcode table -/

/-- How many payload bytes a word announces: LEN for loadSpriteSheet, none for any other (R103). -/
def payloadLength (w : CommandWord) : Nat := if fieldOp w = 0x60 then (fieldLen w).toNat else 0

/-- The command word that `nbits` bits of the opcode table give. The table numbers a row as one 80-bit number, bit 79
the most significant, as R92 does. -/
def tableWord (nbits w : Nat) : CommandWord := BitVec.ofNat 80 (w % 2 ^ nbits)

/-- The bytes of that word as the port carries them (R93), and behind them as many zero bytes as it announces. -/
def tableBytes (nbits w : Nat) : List Byte :=
  wordBytes (tableWord nbits w) ++ List.replicate (payloadLength (tableWord nbits w)) 0

/-- The command the decoder reads from a word of the opcode table; none where it refuses. -/
def decodeTableWord (nbits w : Nat) : Option Instr :=
  match decode (tableBytes nbits w) with
  | .instr i _ => some i
  | .illegal _ _ => none
  | .incomplete => none

end Sys2Proof
end

