-- ==== Sys2Proof/Machine/HostPort.lean ====
section
/-! DEFINITION. The boundary to the host (45_host_interface.md, 70_reset_and_hazards.md): construction, destruction, the
input sample, the publish, the order of a tick, the host's duties, and what it does while no command is ready. -/

namespace Sys2Proof.Machine

/-- Construction, which is reset (R280): every byte of M to its reset contents (R46), nothing on the port, no tick begun.
Observations already made stand (log entry 7). -/
def construct (s : State) : State :=
  { s with mem := [], constructed := true, port := [], phase := .betweenTicks }

/-- Destruction: "After destruction the block has no state and accepts no command" (R47). M and the port are gone; the
empty list stands for that (log entry 7). -/
def destroy (s : State) : State :=
  { s with mem := [], constructed := false, port := [], phase := .betweenTicks }

/-- SampleInput(I): the 58 bytes of the input-register region (R234). The publish of the tick is next (R237). -/
def sampleInput (input : Vector Byte 58) (s : State) : State :=
  { s.setMem (s.mem.store addrInput input.toList) with phase := .sampled }

/-- The frame region of M, bytes 0 .. FRAME_END - 1, by value (R236; log entry 6). -/
def frameOf (s : State) : Memory := s.mem.below (frameEnd s.palBase)

/-- Publish(): the frame region goes to the renderer by copy; M is unchanged (R73, R236). -/
def publish (s : State) : State := { s with published := s.published ++ [frameOf s], phase := .betweenTicks }

/-- The bytes of a published frame, F[0..FRAME_END-1] (R236). -/
def frameBytes (pb : Config.PalBase) (f : Memory) : List Byte := (List.range (frameEnd pb)).map f.read

/-- One tick as host moves (R237): the run loop's advance, the commands of Update, the commands of Draw, the input sample,
the publish. Each command of the callbacks is the bytes it has on the port. -/
def tickMoves (update draw : List (List Byte)) (input : Vector Byte 58) : List HostMove :=
  .startTick :: (update ++ draw).map .issue ++ [.sampleInput input, .publish]

/-- What the block finds on its command port: nothing it can use while it is not constructed (R47: it "accepts no
command"), else what the decoder reads (R93). -/
def fetch (s : State) : Decoded := if s.constructed then decode s.port else .incomplete

/-- The duty that holds of every act but construction and destruction: the block is constructed (H5) and no command is
begun on its port (H1, H3). -/
def notBetweenCommands (s : State) : Option Fault :=
  if s.constructed then
    if s.port.isEmpty then none else some .hostActInsideCommand
  else some .notConstructed

/-- The duty of R238 that an act would break, if any. H2 needs no test: beside its commands the host touches M by
SampleInput, construction and destruction alone, and a response is returned before its next move (H1). -/
def brokenDuty (m : HostMove) (s : State) : Option Fault :=
  match m with
  | .issue bytes =>
    (notBetweenCommands s).or
      (if isOneCommand bytes then (if s.phase = .sampled then some .outsideItsPlace else none)
       else some .notOneCommand)
  | .startTick => (notBetweenCommands s).or (if s.phase = .betweenTicks then none else some .outsideItsPlace)
  | .sampleInput _ => (notBetweenCommands s).or (if s.phase = .callbacks then none else some .outsideItsPlace)
  | .publish => (notBetweenCommands s).or (if s.phase = .sampled then none else some .outsideItsPlace)
  | .construct => none
  | .destroy => if s.constructed then none else some .notConstructed

/-- What an act does. A command goes on the port and is executed in the block's next step. -/
def hostAct (m : HostMove) (s : State) : State :=
  match m with
  | .issue bytes => { s with port := bytes }
  | .startTick => { s with port := encode .advance, phase := .callbacks }
  | .sampleInput input => sampleInput input s
  | .publish => publish s
  | .construct => construct s
  | .destroy => destroy s

/-- No whole command is on the port: the host makes its next move, if that breaks no duty (R238). With no move planned
the block is idle and all of M survives (R266). -/
def hostTurn (s : State) : Result :=
  match s.moves with
  | [] => .next s
  | m :: later =>
    match brokenDuty m s with
    | some f => .fault f
    | none => .next (hostAct m { s with moves := later })

end Sys2Proof.Machine
end

