-- ==== Sys2Proof/Machine/Step.lean ====
section
/-! DEFINITION. One step: the block consumes and executes one command of the port, or, when no whole command is there,
the host makes one move (20_memory.md R72: one command at a time, host acts only between commands). -/

namespace Sys2Proof.Machine

/-- One step. A whole command leaves the port, payload included, and is executed to completion (R93, R103); a word whose
op is not in the opcode map leaves the port and is rejected with ILLEGAL_COMMAND (R251); otherwise the host moves. -/
def step (s : State) : Host.Outcome State Fault Refusal :=
  match fetch s with
  | .instr i rest => exec i { s with port := rest }
  | .illegal _ rest => .next (reject .illegalCommand { s with port := rest })
  | .incomplete => hostTurn s

/-- `s` with the word `w` of the opcode table as the next command on the port: its ten bytes, and as many zero bytes
behind them as it announces, in front of what was there. The block must be constructed to take it. -/
def State.withFetchWord (s : State) (nbits w : Nat) : State :=
  { s with constructed := true, port := tableBytes nbits w ++ s.port }

end Sys2Proof.Machine
end

