-- ==== Sys2Proof/Machine/Flags.lean ====
section
/-! DEFINITION. The block has no flags and no condition codes (10_state.md R23): no operation leaves a result anywhere
but in M and in its own response. What a command reports is the response word (30_encoding.md R97, R98). -/

namespace Sys2Proof.Machine

/-- The numeric status code (R98). -/
def Status.code : Status → BitVec 8
  | .ok => 0x00
  | .illegalCommand => 0x01
  | .badLength => 0x02
  | .outOfRange => 0x03

/-- The 32-bit response word: bits 31:24 = status, bits 23:0 = data (R97). -/
def Response.word (r : Response) : BitVec 32 := r.status.code ++ r.data

/-- The response word as it travels, most significant byte first (R97). -/
def Response.bytes (r : Response) : List Byte :=
  [r.word.extractLsb' 24 8, r.word.extractLsb' 16 8, r.word.extractLsb' 8 8, r.word.extractLsb' 0 8]

end Sys2Proof.Machine
end

