-- ==== Sys2Proof/Machine/Loops.lean ====
section
/-! DEFINITION. The loops of 43_rasterizer.md as the spec writes them (R182, R184, R186): the pixels a drawing command
generates, on and off the canvas, in the order of its loops. No meaning runs them (they have up to 32767 by 32767
steps); the obligations compare the meanings of Machine/Rasterizer.lean with them. -/

namespace Sys2Proof.Machine

/-- `for v in lo..hi`: lo, lo+1, ..., hi, and nothing when hi < lo (00_scope.md R11). -/
def forRange (lo hi : Int) : List Int :=
  (List.range (hi - lo + 1).toNat).map fun k => lo + (k : Int)

/-- The double loop of fillRect (R184). -/
def fillLoop (x y w h cx cy : Int) : List (Int × Int) :=
  (forRange 0 (h - 1)).flatMap fun j => (forRange 0 (w - 1)).map fun i => (x + i - cx, y + j - cy)

/-- The double loop of drawRectBorder (R182). -/
def borderLoop (x y w h cx cy : Int) : List (Int × Int) :=
  (forRange 0 (h - 1)).flatMap fun j =>
    ((forRange 0 (w - 1)).filter fun i => decide (i = 0 ∨ i = w - 1 ∨ j = 0 ∨ j = h - 1)).map
      fun i => (x + i - cx, y + j - cy)

/-- The loop of drawLine's wide branch, after the swap (R186). -/
def wideLoop (x1 y1 x2 y2 cx cy : Int) : List (Int × Int) :=
  (forRange x1 (x2 - 1)).map fun x => (x - cx, lineY y1 (y2 - y1) (x2 - x1) (x - x1) - cy)

/-- The loop of drawLine's vertical branch, after the swap (R186). -/
def tallLoop (x y1 y2 cx cy : Int) : List (Int × Int) :=
  (forRange y1 (y2 - 1)).map fun y => (x - cx, y - cy)

/-- The pixels drawLine generates, moved by the camera (R186). -/
def lineLoop (x1 y1 x2 y2 cx cy : Int) : List (Int × Int) :=
  if x1 ≠ x2 then
    if x1 > x2 then wideLoop x2 y2 x1 y1 cx cy else wideLoop x1 y1 x2 y2 cx cy
  else
    if y1 > y2 then tallLoop x1 y2 y1 cx cy else tallLoop x1 y1 y2 cx cy

end Sys2Proof.Machine
end

