-- ==== Sys2Proof/Safety.lean ====
section
/-! DEFINITION. What a safe run is, in the terms the claims use: runs of the machine, and the invariant that every state
of a run has. -/

namespace Sys2Proof.Machine

/-- `k` steps, stopping at the first fault or refusal. -/
def run : Nat → State → Result
  | 0, s => .next s
  | k + 1, s =>
    match step s with
    | .next t => run k t
    | .fault r => .fault r
    | .refused r => .refused r

/-- Commands executed one after the other on one memory (20_memory.md R72). -/
def execAll : List Instr → State → Result
  | [], s => .next s
  | i :: is, s =>
    match exec i s with
    | .next t => execAll is t
    | .fault r => .fault r
    | .refused r => .refused r

/-- One command as the bytes it has on the port, executed, or rejected where its op is not in the opcode map (R251). -/
def serve (bytes : List Byte) (s : State) : Result :=
  match decode bytes with
  | .instr i _ => exec i s
  | .illegal _ _ => .next (reject .illegalCommand s)
  | .incomplete => .next s

/-- Commands served one after the other on one memory (20_memory.md R72). -/
def serveAll : List (List Byte) → State → Result
  | [], s => .next s
  | b :: bs, s =>
    match serve b s with
    | .next t => serveAll bs t
    | .fault r => .fault r
    | .refused r => .refused r

/-- The bytes of M that nothing writes after reset: the built-in sprites, 0x6F49 and the unassigned bytes (R70). -/
def NeverWritten (pb : Config.PalBase) (a : Nat) : Prop :=
  Region.builtinSprites.holds pb a ∨ Region.gap.holds pb a ∨ a = 0x6F49 ∨ Region.upper.holds pb a

/-- The invariant of the block: M is in its canonical form, the bytes nothing writes still hold their reset contents
(R40, R41, R42), the unassigned bits of BG are 0 (R29), and every published frame is a canonical copy that holds nothing
from FRAME_END on (R236). The port is empty or holds exactly one command (45_host_interface.md R238 H1). -/
structure State.Inv (s : State) : Prop where
  wf : s.mem.wf = true
  untouched : ∀ a, NeverWritten s.palBase a → s.mem.read a = State.reset.mem.read a
  bgLow : s.bg.extractLsb' 0 5 = 0
  frames : ∀ f ∈ s.published, f.wf = true ∧ ∀ c ∈ f, c.1 < frameEnd s.palBase
  port : s.port = [] ∨ isOneCommand s.port = true

end Sys2Proof.Machine
end

