-- ==== Sys2Proof/Certificates/Slice0/Obligations.lean ====
section
/-! DEFINITION. The statements for the provers. They speak of M through `Memory.read` and of pixels through the plane
formulas of 20_memory.md R67 written out in plain arithmetic, of signed operands through `BitVec.toInt`, and of the
line's interpolation through the floor of a rational number, so that they do not repeat the meanings' own code. -/

open Sys2Proof Sys2Proof.Machine

namespace Sys2Proof.Claims

/-- `t` is `s` with one more response, but for M. -/
def Answers (s t : State) (st : Status) (data : BitVec 24) : Prop :=
  t.responses = s.responses ++ [⟨st, data⟩] ∧ t.palBase = s.palBase ∧ t.constructed = s.constructed ∧
    t.port = s.port ∧ t.phase = s.phase ∧ t.moves = s.moves ∧ t.published = s.published

/-- M is canonical in `t`, and every byte at an address that is not in `W` reads as in `s`. -/
def WritesOnly (s t : State) (W : Nat → Prop) : Prop :=
  t.mem.wf = true ∧ ∀ a, ¬ W a → t.mem.read a = s.mem.read a

/-- The canvas, in raw coordinates. -/
def OnCanvas (x y : Int) : Prop := 0 ≤ x ∧ x ≤ 191 ∧ 0 ≤ y ∧ y ≤ 191

/-- The bytes of the two planes (R26, R27). -/
def InPlanes (pb : Config.PalBase) (a : Nat) : Prop :=
  a < 0x2400 ∨ (palBaseAddr pb ≤ a ∧ a < palBaseAddr pb + 0x1200)

/-- The index of the pixel at raw (x, y), read off its byte (R26). -/
def indexAt (s : State) (x y : Nat) : Nat := (s.mem.read (x / 4 + y * 48)).toNat / 4 ^ (x % 4) % 4

/-- The bank of the pixel at raw (x, y), read off its byte (R27). -/
def bankAt (s : State) (x y : Nat) : Nat :=
  (s.mem.read (palBaseAddr s.palBase + x / 8 + y * 24)).toNat / 2 ^ (x % 8) % 2

/-- The colour of the pixel at raw (x, y) as `index | (bank << 2)` (R91). -/
def colourAt (s : State) (x y : Nat) : Nat := indexAt s x y + 4 * bankAt s x y

/-- From `s` to `t` the canvas pixels in `S` took the colour `col[2:0]`, every other canvas pixel kept its colour, and
no byte outside the planes changed. -/
def Paints (s t : State) (S : Int → Int → Prop) (col : Byte) : Prop :=
  WritesOnly s t (InPlanes s.palBase) ∧
    ∀ x y : Nat, x < 192 → y < 192 →
      (S x y → colourAt t x y = col.toNat % 8) ∧ (¬ S x y → colourAt t x y = colourAt s x y)

/-- Every word with this op, whatever its unused fields hold, is the command `f` makes of its fields, and takes no byte
behind it from the port (R92, R93, R95, R101). -/
def Encodes (op : Byte) (f : Field → Field → Field → Field → Byte → Instr) : Prop :=
  ∀ a b c d k rest, decode (wordBytes (packWord op a b c d k) ++ rest) = .instr (f a b c d k) rest

/-- The sixteen operation codes (R99). -/
def opcodes : List Byte :=
  [0x10, 0x11, 0x20, 0x21, 0x22, 0x23, 0x30, 0x31, 0x32, 0x40, 0x41, 0x42, 0x43, 0x50, 0x51, 0x60]

/-- The bits of a word that its command uses: op and the fields of its format (R95). -/
def usedMask (op : Byte) : CommandWord :=
  if op = 0x10 then 0xFFFFFFFFFF00000000FF
  else if op = 0x11 ∨ op = 0x30 then 0xFFFFFFFFFF0000000000
  else if op = 0x20 ∨ op = 0x21 then 0xFFFFFF00000000000000
  else if op = 0x23 then 0xFF0000000000000000FF
  else if op = 0x31 then 0xFFFFFFFFFFFFFFFFFF00
  else if op = 0x40 ∨ op = 0x41 ∨ op = 0x42 then 0xFFFFFFFFFFFFFFFFFFFF
  else if op = 0x60 then 0xFF00000000FFFFFFFF00
  else 0xFF000000000000000000

/-- The write matrix: the bytes a command may write (R70). -/
def MayWrite (pb : Config.PalBase) (i : Instr) (a : Nat) : Prop :=
  match i with
  | .setPixel x y _ => OnCanvas x.toInt y.toInt ∧
      (a = x.toInt.toNat / 4 + y.toInt.toNat * 48 ∨
        a = palBaseAddr pb + x.toInt.toNat / 8 + y.toInt.toNat * 24)
  | .getPixel _ _ => False
  | .setPaletteA _ => a = 0x3601
  | .setPaletteB _ => a = 0x3601
  | .getPalettes => False
  | .setBackground _ => a = 0x3602
  | .setCamera _ _ => 0x3603 ≤ a ∧ a ≤ 0x3606
  | .setClip _ _ _ _ => 0x360A ≤ a ∧ a ≤ 0x360D
  | .resetClip => 0x360A ≤ a ∧ a ≤ 0x360D
  | .drawRectBorder _ _ _ _ _ => InPlanes pb a
  | .fillRect _ _ _ _ _ => InPlanes pb a
  | .drawLine _ _ _ _ _ => InPlanes pb a
  | .clearScreen => InPlanes pb a
  | .advance => 0x3607 ≤ a ∧ a ≤ 0x3609
  | .frames => False
  | .loadSpriteSheet len _ => len = 0x3000 ∧ 0x3F49 ≤ a ∧ a ≤ 0x6F48

/-- The write matrix over one step: a command's row, the host's rows, nothing for a rejected word (R70). -/
def StepMayWrite (s : State) (a : Nat) : Prop :=
  match fetch s with
  | .instr i _ => MayWrite s.palBase i a
  | .illegal _ _ => False
  | .incomplete =>
    match s.moves with
    | .sampleInput _ :: _ => 0x360E ≤ a ∧ a ≤ 0x3647
    | .construct :: _ => True
    | .destroy :: _ => True
    | .issue _ :: _ => False
    | .startTick :: _ => False
    | .publish :: _ => False
    | [] => False

/-- The bytes whose value a command consults, beyond the bytes it modifies in place (R71). -/
def Consults (pb : Config.PalBase) (i : Instr) (a : Nat) : Prop :=
  match i with
  | .setPixel _ _ _ => False
  | .getPixel x y => OnCanvas x.toInt y.toInt ∧
      (a = x.toInt.toNat / 4 + y.toInt.toNat * 48 ∨
        a = palBaseAddr pb + x.toInt.toNat / 8 + y.toInt.toNat * 24)
  | .setPaletteA _ => False
  | .setPaletteB _ => False
  | .getPalettes => a = 0x3601
  | .setBackground _ => False
  | .setCamera _ _ => False
  | .setClip _ _ _ _ => False
  | .resetClip => False
  | .drawRectBorder _ _ _ _ _ => 0x3603 ≤ a ∧ a ≤ 0x3606
  | .fillRect _ _ _ _ _ => 0x3603 ≤ a ∧ a ≤ 0x3606
  | .drawLine _ _ _ _ _ => 0x3603 ≤ a ∧ a ≤ 0x3606
  | .clearScreen => a = 0x3602
  | .advance => 0x3607 ≤ a ∧ a ≤ 0x3609
  | .frames => 0x3607 ≤ a ∧ a ≤ 0x3609
  | .loadSpriteSheet _ _ => False

/-- The next thing the host does is to construct or destroy the block, and it is the host's turn. -/
def HostRebuilds (s : State) : Prop :=
  fetch s = .incomplete ∧ (s.moves.head? = some .construct ∨ s.moves.head? = some .destroy)

/-- It is the host's turn, and this is its next act. -/
def HostActs (s : State) (m : HostMove) : Prop := fetch s = .incomplete ∧ s.moves.head? = some m

/-- The bytes are one command word, with the LEN payload bytes a load announces and nothing else (R103; R238 H1, H4). -/
def OneCommand (bytes : List Byte) : Prop :=
  ∃ (w : CommandWord) (payload : List Byte), bytes = wordBytes w ++ payload ∧
    payload.length = if fieldOp w = 0x60 then (fieldLen w).toNat else 0

/-- The act has its place in the tick (R237; R238 H3): a command anywhere but between the sample and the publish, the
tick's start between ticks, the sample after the callbacks, the publish after the sample. -/
def InItsPlace (m : HostMove) (p : TickPhase) : Prop :=
  match m with
  | .issue _ => p ≠ .sampled
  | .startTick => p = .betweenTicks
  | .sampleInput _ => p = .callbacks
  | .publish => p = .sampled
  | .construct => True
  | .destroy => True

/-- The duty of R238 an act would break, in the order the model looks at them: H5, then that no command is begun on the
port (H1, H3), then that what is issued is one command (H1, H4), then the act's place in the tick (H3). Construction
breaks none, and destruction only the first. -/
def BreaksDuty (s : State) (m : HostMove) (f : Fault) : Prop :=
  m ≠ .construct ∧
    ((f = .notConstructed ∧ s.constructed = false) ∨
     (s.constructed = true ∧ m ≠ .destroy ∧
      ((f = .hostActInsideCommand ∧ s.port ≠ []) ∨
       (s.port = [] ∧
        ((f = .notOneCommand ∧ ∃ bytes, m = .issue bytes ∧ ¬ OneCommand bytes) ∨
         (f = .outsideItsPlace ∧ (∀ bytes, m = .issue bytes → OneCommand bytes) ∧ ¬ InItsPlace m s.phase))))))

/-- The camera-space box of a rectangle command, moved by the camera (R184). -/
def InBox (s : State) (x y w h : Field) (rx ry : Int) : Prop :=
  x.toInt - s.camX ≤ rx ∧ rx ≤ x.toInt - s.camX + w.toInt - 1 ∧
    y.toInt - s.camY ≤ ry ∧ ry ≤ y.toInt - s.camY + h.toInt - 1

/-- Its border (R185). -/
def OnBorder (s : State) (x y w h : Field) (rx ry : Int) : Prop :=
  InBox s x y w h rx ry ∧
    (rx = x.toInt - s.camX ∨ rx = x.toInt - s.camX + w.toInt - 1 ∨
      ry = y.toInt - s.camY ∨ ry = y.toInt - s.camY + h.toInt - 1)

/-- The raw pixel (rx, ry) is one a wide line from (xa, ya) to (xb, yb), xa < xb, generates: column x = rx + CAMX in
xa..xb-1, row ya + floor(dy*(x - xa)/dx), with the quotient an exact rational (R186). -/
def OnWideLine (s : State) (xa ya xb yb : Int) (rx ry : Int) : Prop :=
  xa ≤ rx + s.camX ∧ rx + s.camX ≤ xb - 1 ∧
    ry + s.camY = ya + ⌊(((yb - ya) * (rx + s.camX - xa) : Int) : ℚ) / ((xb - xa : Int) : ℚ)⌋

/-- The raw pixels of drawLine (R186). -/
def OnLine (s : State) (x1 y1 x2 y2 : Field) (rx ry : Int) : Prop :=
  if x1.toInt < x2.toInt then OnWideLine s x1.toInt y1.toInt x2.toInt y2.toInt rx ry
  else if x2.toInt < x1.toInt then OnWideLine s x2.toInt y2.toInt x1.toInt y1.toInt rx ry
  else rx + s.camX = x1.toInt ∧ min y1.toInt y2.toInt ≤ ry + s.camY ∧ ry + s.camY ≤ max y1.toInt y2.toInt - 1

/-- Both states show the same picture. -/
def SamePicture (s t : State) : Prop := ∀ x y : Nat, x < 192 → y < 192 → colourAt s x y = colourAt t x y

end Sys2Proof.Claims

open Sys2Proof.Claims

/-! ## Encoding and decoding -/

/-- Decoding the bytes of a well-formed command gives it back, with every operand at every value, and leaves what is
behind it on the port (30_encoding.md sections 2 and 4). -/
def Obligations.EncodeThenDecodeIsIdentity : Prop :=
  ∀ (i : Instr) (rest : List Byte), i.wf = true → decode (encode i ++ rest) = .instr i rest

/-- R100, R251: every word is one of the sixteen commands or illegal; an illegal word leaves the port, its ten bytes and
no more, and is answered ILLEGAL_COMMAND with nothing else changed. -/
def Obligations.WordsAreCommandsOrIllegal : Prop :=
  (∀ (w : CommandWord) (rest : List Byte), fieldOp w ∈ opcodes →
      (fieldOp w = 0x60 → (fieldLen w).toNat ≤ rest.length) →
      ∃ i rest', decode (wordBytes w ++ rest) = .instr i rest' ∧ opcode i = fieldOp w ∧ i.wf = true ∧
        payloadOf i ++ rest' = rest) ∧
  (∀ (w : CommandWord) (rest : List Byte), fieldOp w ∉ opcodes →
      decode (wordBytes w ++ rest) = .illegal (fieldOp w) rest) ∧
  (∀ (w : CommandWord) (rest : List Byte) (s : State), fieldOp w ∉ opcodes → s.constructed = true →
      s.port = wordBytes w ++ rest →
      step s = .next { s with port := rest, responses := s.responses ++ [⟨.illegalCommand, 0⟩] }) ∧
  opcodes.Nodup ∧ opcodes.length = 16

/-- R101: words that differ only in unused fields are the same command, and the encoder writes zeros there. -/
def Obligations.UnusedFieldsAreIgnored : Prop :=
  (∀ (w w' : CommandWord) (rest : List Byte), w &&& usedMask (fieldOp w) = w' &&& usedMask (fieldOp w) →
      decode (wordBytes w ++ rest) = decode (wordBytes w' ++ rest)) ∧
  (∀ i : Instr, encodeWord i &&& ~~~ usedMask (opcode i) = 0)

/-- R102: colour bits 7:3, palette bits 15:4 and clip bits 15:8 change nothing in any command that uses the field, and
every such command answers OK. -/
def Obligations.ReservedOperandBitsAreIgnored : Prop :=
  (∀ (s : State) (x y w h : Field) (k k' : Byte), k.toNat % 8 = k'.toNat % 8 →
      exec (.setPixel x y k) s = exec (.setPixel x y k') s ∧
      exec (.setBackground k) s = exec (.setBackground k') s ∧
      exec (.drawRectBorder x y w h k) s = exec (.drawRectBorder x y w h k') s ∧
      exec (.fillRect x y w h k) s = exec (.fillRect x y w h k') s ∧
      exec (.drawLine x y w h k) s = exec (.drawLine x y w h k') s) ∧
  (∀ (s : State) (v v' : Field), v.toNat % 16 = v'.toNat % 16 →
      exec (.setPaletteA v) s = exec (.setPaletteA v') s ∧ exec (.setPaletteB v) s = exec (.setPaletteB v') s) ∧
  (∀ (s : State) (x y w h x' y' w' h' : Field), x.toNat % 256 = x'.toNat % 256 → y.toNat % 256 = y'.toNat % 256 →
      w.toNat % 256 = w'.toNat % 256 → h.toNat % 256 = h'.toNat % 256 →
      exec (.setClip x y w h) s = exec (.setClip x' y' w' h') s) ∧
  (∀ (s : State) (x y w h : Field) (k : Byte), ∀ i ∈ [Instr.setPixel x y k, .setBackground k,
      .drawRectBorder x y w h k, .fillRect x y w h k, .drawLine x y w h k, .setPaletteA x, .setPaletteB x,
      .setClip x y w h], ∃ t, exec i s = .next t ∧ Answers s t .ok 0)

/-- Nine words written out in 95_test_vectors.md sections 2.1, 2.4 and 2.6 decode to the commands they stand for, and the
all-zero word is refused. The payload behind the load of LEN 4 is zeros, the model's choice (log entry 15); the vector
has AA BB CC DD there. -/
def Obligations.SampleWordsDecode : Prop :=
  decodeTableWord 80 0x10000500030000000006 = some (.setPixel 5 3 0x06) ∧
  decodeTableWord 80 0x41FFFF00000002000104 = some (.fillRect 0xFFFF 0 2 1 0x04) ∧
  decodeTableWord 80 0x42FFFEFFFF0003000405 = some (.drawLine 0xFFFE 0xFFFF 3 4 0x05) ∧
  decodeTableWord 80 0x43123456789ABCDEF0FF = some .clearScreen ∧
  decodeTableWord 80 0x310008001001C0003200 = some (.setClip 8 16 0x01C0 50) ∧
  decodeTableWord 80 0x30000A00140000000000 = some (.setCamera 10 20) ∧
  decodeTableWord 80 0x2000FF00000000000000 = some (.setPaletteA 0x00FF) ∧
  decodeTableWord 80 0x50000000000000000000 = some .advance ∧
  decodeTableWord 80 0x60000000000000000400 = some (.loadSpriteSheet 4 [0, 0, 0, 0]) ∧
  decodeTableWord 80 0x00000000000000000000 = none

/-! ## Steps, the response and the host -/

/-- The bytes on the port of a constructed block decode to a command: the step is that command's meaning, with the
command gone from the port (20_memory.md section 5, 30_encoding.md R93). -/
def Obligations.StepExecutesTheCommandOnThePort : Prop :=
  ∀ (s : State) (i : Instr) (rest : List Byte), s.constructed = true → decode s.port = .instr i rest →
    step s = exec i { s with port := rest }

/-- R250: the three conditions a command can report, and nothing else; a rejection carries data 0 and leaves M as it
was. Every command answers exactly once. -/
def Obligations.RejectionsAreExactlyThese : Prop :=
  (∀ (i : Instr) (s : State), ∃ t st data, exec i s = .next t ∧ Answers s t st data ∧
      st ≠ .illegalCommand ∧
      (st = .badLength ↔ ∃ len payload, i = .loadSpriteSheet len payload ∧ len ≠ 0x3000) ∧
      (st = .outOfRange ↔ ∃ x y, i = .getPixel x y ∧ ¬ OnCanvas x.toInt y.toInt) ∧
      (st ≠ .ok → data = 0 ∧ t.mem = s.mem)) ∧
  (∀ (s : State) (op : Byte) (rest : List Byte), s.constructed = true → decode s.port = .illegal op rest →
      ∃ t, step s = .next t ∧ Answers { s with port := rest } t .illegalCommand 0 ∧ t.mem = s.mem) ∧
  Status.code .illegalCommand = 0x01 ∧ Status.code .badLength = 0x02 ∧ Status.code .outOfRange = 0x03

/-- The layout of the response word (30_encoding.md section 3): the status code in bits 31:24, the data in bits 23:0,
most significant byte first. -/
def Obligations.ResponseWordLayout : Prop :=
  ∀ (st : Status) (data : BitVec 24),
    (Response.mk st data).word.toNat =
      (match st with | .ok => 0 | .illegalCommand => 1 | .badLength => 2 | .outOfRange => 3) * 2 ^ 24 + data.toNat ∧
    ((Response.mk st data).bytes.map BitVec.toNat).foldl (fun n b => n * 256 + b) 0 =
      (Response.mk st data).word.toNat

/-- The wait state (60_exceptions.md section 5): a constructed block with nothing on its port and a host that does nothing
stays as it is, and a command the host issues, or a word with an illegal op, is executed in the next step, with no other
act between the two. That issuing is a step of its own, and that no command is issued between the sample and the publish
of a tick, are the model's (log entries 4 and 16). -/
def Obligations.IdleBlockWaitsForACommand : Prop :=
  ∀ (s : State), s.constructed = true → s.port = [] →
    (s.moves = [] → step s = .next s) ∧
    (∀ (i : Instr) (later : List HostMove), i.wf = true → s.phase ≠ .sampled →
      s.moves = .issue (encode i) :: later →
      ∃ t, step s = .next t ∧ t.mem = s.mem ∧ step t = exec i { s with moves := later }) ∧
    (∀ (w : CommandWord) (later : List HostMove), fieldOp w ∉ opcodes → s.phase ≠ .sampled →
      s.moves = .issue (wordBytes w) :: later →
      ∃ t, step s = .next t ∧ t.mem = s.mem ∧
        step t = .next { s with moves := later, responses := s.responses ++ [⟨.illegalCommand, 0⟩] })

/-- SampleInput, after the callbacks of a tick (45_host_interface.md section 3; its last sentence, that no other byte and no
response changes, is "derived: from 20_memory.md rule R71"), writes the 58 input bytes, any values, changes no other byte,
and changes no response of any command. The phase of the tick as state is the model's (log entry 16). -/
def Obligations.SampleInputWritesTheInputBytes : Prop :=
  ∀ (s : State) (input : Vector Byte 58) (later : List HostMove), s.constructed = true → s.port = [] →
    s.mem.wf = true → s.phase = .callbacks → s.moves = .sampleInput input :: later →
    ∃ t, step s = .next t ∧ (∀ k (hk : k < 58), t.mem.read (0x360E + k) = input[k]) ∧
      WritesOnly s t (fun a => 0x360E ≤ a ∧ a ≤ 0x3647) ∧
      t.mouseX = input[0] ∧ t.mouseY = input[1] ∧ t.mouseButtons = input[2] ∧
      (∀ k : Fin 55, t.key k = input[3 + k.val]) ∧
      t.moves = later ∧ t.port = [] ∧ t.phase = .sampled ∧ t.responses = s.responses ∧ t.published = s.published ∧
      t.palBase = s.palBase ∧ t.constructed = true ∧
      (∀ i s' t', exec i s = .next s' → exec i t = .next t' → t'.responses = s'.responses)

/-- Publish, after the sample of a tick (45_host_interface.md section 4, "Once per tick, last"), hands out bytes 0 ..
FRAME_END - 1 by value, FRAME_END = PAL_BASE + 0x1200, and changes nothing in M; with PAL_BASE = 0x2401 the frame also
holds the unassigned byte 0x2400, which is 0 in every state the invariant allows. The phase of the tick as state is the
model's (log entry 16). -/
def Obligations.PublishCopiesTheFrameRegion : Prop :=
  ∀ (s : State) (later : List HostMove), s.constructed = true → s.port = [] → s.phase = .sampled →
    s.moves = .publish :: later →
    ∃ f, step s = .next { s with moves := later, phase := .betweenTicks, published := s.published ++ [f] } ∧
      (frameBytes s.palBase f).length = palBaseAddr s.palBase + 0x1200 ∧
      (∀ a, a < palBaseAddr s.palBase + 0x1200 → (frameBytes s.palBase f)[a]? = some (s.mem.read a)) ∧
      (s.Inv → s.palBase = .x2401 → (frameBytes s.palBase f)[0x2400]? = some 0)

/-- Construction (70_reset_and_hazards.md section 1): every byte of M is 0x00 but the BUILTIN bytes from 0x3648 on, and the
block is ready for its first command: it is constructed, with nothing on its port. That a running block may be
constructed again at once, which empties a port that held the beginning of a command, and that the tick's phase goes back
to between ticks, are the model's (log entries 7 and 16); so is the cut of a BUILTIN longer than 0x901 bytes (log entry
2). -/
def Obligations.ConstructionResetsM : Prop :=
  ∀ (s : State) (later : List HostMove), fetch s = .incomplete → s.moves = .construct :: later →
    ∃ t, step s = .next t ∧ t.constructed = true ∧ t.port = [] ∧ t.phase = .betweenTicks ∧ t.moves = later ∧
      t.mem.wf = true ∧
      (∀ a, t.mem.read a =
        if 0x3648 ≤ a ∧ a < 0x3648 + min Config.builtin.length 0x901 then Config.builtin.getD (a - 0x3648) 0 else 0)

/-- R46: the reset state: M as stated, and every register 0. (BUILTIN_LEN is at most 0x901; a longer list is cut there, log
entry 2.) -/
def Obligations.ResetStateIsAsStated : Prop :=
  (∀ a, State.reset.mem.read a =
    if 0x3648 ≤ a ∧ a < 0x3648 + min Config.builtin.length 0x901 then Config.builtin.getD (a - 0x3648) 0 else 0) ∧
  (∀ x y, x < 192 → y < 192 → colourAt State.reset x y = 0) ∧
  State.reset.palA = 0 ∧ State.reset.palB = 0 ∧ State.reset.bgColour = 0 ∧ State.reset.camX = 0 ∧
  State.reset.camY = 0 ∧ State.reset.frameCount = 0 ∧ State.reset.clipX = 0 ∧ State.reset.clipY = 0 ∧
  State.reset.clipW = 0 ∧ State.reset.clipH = 0 ∧ State.reset.mouseX = 0 ∧ State.reset.mouseY = 0 ∧
  State.reset.mouseButtons = 0 ∧ ∀ k, State.reset.key k = 0

/-- The tick (45_host_interface.md section 5): the run loop's advance, the commands of Update and those of Draw, illegal
words and loads of any length among them, are served in that order on one memory, then the input sample is written, then
what Draw left is published, and then comes whatever the host planned next. That each issue is a step of its own before
the step that serves the command is the model's (log entry 4). -/
def Obligations.TickRunsInOrder : Prop :=
  ∀ (s : State) (update draw : List (List Byte)) (input : Vector Byte 58) (later : List HostMove),
    s.constructed = true → s.port = [] → s.phase = .betweenTicks → (∀ bytes ∈ update ++ draw, OneCommand bytes) →
    s.moves = tickMoves update draw input ++ later →
    ∃ u, serveAll (encode .advance :: (update ++ draw)) s = .next u ∧
      run (2 * (1 + update.length + draw.length) + 2) s =
        .next (publish (sampleInput input { u with moves := later }))

/-- A step stops exactly where the host's next act would break a duty, and on nothing else: no step is refused, and a step
with a command or an illegal word on the port of a constructed block always answers (45_host_interface.md section 6; that
the model stops there, and the faults' names, are the model's, log entries 4, 7, 12, 13 and 16). -/
def Obligations.StepStopsOnlyOnHostMisuse : Prop :=
  (∀ s r, step s ≠ .refused r) ∧
  (∀ s f, step s = .fault f ↔ ∃ m, HostActs s m ∧ BreaksDuty s m f) ∧
  (∀ s, s.constructed = true → decode s.port ≠ .incomplete → ∃ t, step s = .next t)

/-- One command at a time (45_host_interface.md section 6, H1 and H4): from every state of the invariant, a constructed
block has nothing on its port and it is the host's turn, or it holds exactly one command, and then the step answers it
with one more response, leaves the port empty and makes no host move. So the host issues nothing before the last
response is there. That an act is a step of its own is the model's (log entry 4). -/
def Obligations.OneCommandAtATime : Prop :=
  ∀ s : State, s.Inv → s.constructed = true →
    (s.port = [] ∧ step s = hostTurn s) ∨
    (OneCommand s.port ∧ ∃ t r, step s = .next t ∧ t.port = [] ∧ t.responses = s.responses ++ [r] ∧
      t.moves = s.moves ∧ t.phase = s.phase ∧ t.published = s.published)

/-- The host's acts come only at their points of the tick (45_host_interface.md section 6, H3, and section 5): the phase
goes from between ticks to the callbacks by a tick's start, from there to sampled by the one SampleInput, from there back
by the one Publish; construction and destruction go back to between ticks; every other step leaves the phase and issues
no command after the sample. The phase as state is the model's (log entry 16). -/
def Obligations.HostActsOnlyAtItsPlaces : Prop :=
  ∀ s t : State, step s = .next t →
    (HostRebuilds s ∧ t.phase = .betweenTicks) ∨
    (HostActs s .startTick ∧ s.phase = .betweenTicks ∧ t.phase = .callbacks) ∨
    ((∃ input, HostActs s (.sampleInput input)) ∧ s.phase = .callbacks ∧ t.phase = .sampled) ∨
    (HostActs s .publish ∧ s.phase = .sampled ∧ t.phase = .betweenTicks) ∨
    ((∀ m, HostActs s m → s.phase ≠ .sampled ∧ ∃ bytes, m = .issue bytes ∧ OneCommand bytes) ∧ t.phase = s.phase)

/-- The host's liberties (45_host_interface.md section 6): on a constructed block with an empty port the host may issue any
one command, legal or not, with any payload, inside the callbacks of a tick and outside a tick, begin a tick between
ticks, sample any 58 bytes after the callbacks, publish after the sample, and stop. A step gives a next state for each;
what waits on the port is the command issued, at a tick's start the run loop's advance. Destruction leaves the block not
constructed with nothing on its port (10_state.md section 7, R47), every other act leaves it constructed. That a running
block may be constructed again at once, and that destruction has no point of the tick, are no liberties the section lists
but the model's choice (log entry 7); the tick's phase as state is the model's too (log entry 16). -/
def Obligations.HostLibertiesAreAllowed : Prop :=
  ∀ s : State, s.constructed = true → s.port = [] →
    (s.moves = [] → step s = .next s) ∧
    (∀ m later, s.moves = m :: later → InItsPlace m s.phase → (∀ bytes, m = .issue bytes → OneCommand bytes) →
      ∃ t, step s = .next t ∧ t.moves = later ∧ t.responses = s.responses ∧
        (∀ bytes, m = .issue bytes → t.port = bytes ∧ t.mem = s.mem ∧ t.phase = s.phase) ∧
        (m = .startTick → decode t.port = .instr .advance [] ∧ t.mem = s.mem) ∧
        (m = .destroy → t.constructed = false ∧ t.port = []) ∧
        (m ≠ .destroy → t.constructed = true))

/-- The end of an instance (10_state.md section 7, R47: "After destruction the block has no state and accepts no command"):
when it is the host's turn, destroying a constructed block leaves it not constructed, with nothing on its port, and the
responses and frames already observed as they were. A block that is not constructed serves nothing, whatever stands on
its port: it stays as it is while the host does nothing, every act but construction stops with notConstructed, and
construction alone makes it constructed. That destruction has no point of the tick, what a destroyed block is held as, and
that the model stops there, are the model's (log entries 4, 7 and 16). -/
def Obligations.DestroyedBlockAcceptsNoCommand : Prop :=
  (∀ (s : State) (later : List HostMove), s.constructed = true → fetch s = .incomplete →
    s.moves = .destroy :: later →
    ∃ t, step s = .next t ∧ t.constructed = false ∧ t.port = [] ∧ t.phase = .betweenTicks ∧ t.moves = later ∧
      t.responses = s.responses ∧ t.published = s.published ∧ t.palBase = s.palBase) ∧
  (∀ s : State, s.constructed = false →
    (s.moves = [] → step s = .next s) ∧
    (∀ m later, s.moves = m :: later → m ≠ .construct → step s = .fault .notConstructed) ∧
    (∀ later, s.moves = .construct :: later →
      ∃ t, step s = .next t ∧ t.constructed = true ∧ t.port = [] ∧ t.moves = later ∧ t.responses = s.responses))

/-! ## Rules of the whole machine -/

/-- Every step keeps the invariant: canonical M and canonical published frames (the model's, log entries 2 and 6), the
never-written bytes at their reset contents (10_state.md section 5), BG bits 4:0 zero (10_state.md section 4), at most one command on the
port (45_host_interface.md section 6, H1). -/
def Obligations.StepKeepsTheInvariant : Prop :=
  ∀ s t : State, s.Inv → step s = .next t → t.Inv

/-- The reset state meets the invariant. -/
def Obligations.ResetMeetsTheInvariant : Prop := State.reset.Inv

/-- The write matrix (20_memory.md section 4, "derived: from the pseudocode of every operation rule"): a step writes
only the bytes its row lists, and never changes PAL_BASE. Destruction is the model's row (log entry 7). -/
def Obligations.StepWritesOnlyItsRow : Prop :=
  ∀ s t : State, s.mem.wf = true → step s = .next t →
    t.palBase = s.palBase ∧ t.mem.wf = true ∧ ∀ a, ¬ StepMayWrite s a → t.mem.read a = s.mem.read a

/-- The read matrix as non-interference (20_memory.md section 4): two states that agree on the bytes a command consults
get the same response from it, and every byte they agreed on before they agree on after. -/
def Obligations.CommandsReadOnlyWhatTheyConsult : Prop :=
  ∀ (i : Instr) (s s' : State), s.mem.wf = true → s'.mem.wf = true → s'.palBase = s.palBase →
    (∀ a, Consults s.palBase i a → s'.mem.read a = s.mem.read a) →
    ∃ t t' st data, exec i s = .next t ∧ exec i s' = .next t' ∧ Answers s t st data ∧ Answers s' t' st data ∧
      ∀ a, s'.mem.read a = s.mem.read a → t'.mem.read a = t.mem.read a

/-- R164 (the spec's decision D10): the clip rectangle is inert: whatever the four clip bytes hold, a command answers
the same and leaves every other byte of M the same. -/
def Obligations.ClipRegistersAreInert : Prop :=
  ∀ (i : Instr) (s s' : State), s.mem.wf = true → s'.mem.wf = true → s'.palBase = s.palBase →
    (∀ a, ¬ (0x360A ≤ a ∧ a ≤ 0x360D) → s'.mem.read a = s.mem.read a) →
    ∃ t t' st data, exec i s = .next t ∧ exec i s' = .next t' ∧ Answers s t st data ∧ Answers s' t' st data ∧
      ∀ a, ¬ (0x360A ≤ a ∧ a ≤ 0x360D) → t'.mem.read a = t.mem.read a

/-- R222, R45: FRAMES moves only by advance, which adds 1 modulo 2^24; only reset (or the end of the instance) makes it
anything else. -/
def Obligations.FramesMovesOnlyByAdvance : Prop :=
  ∀ s t : State, s.mem.wf = true → step s = .next t →
    (∀ rest, fetch s = .instr .advance rest → t.frameCount = (s.frameCount + 1) % 2 ^ 24) ∧
    ((∀ rest, fetch s ≠ .instr .advance rest) → ¬ HostRebuilds s → t.frameCount = s.frameCount)

/-- With either PAL_BASE the regions of the address map cover 0x0000..0xFFFF and none overlaps another (10_state.md
section 6, "derived: each range starts one past the end of the previous one"). -/
def Obligations.RegionsPartitionM : Prop :=
  ∀ (pb : Config.PalBase) (a : Nat),
    (a < 0x10000 → ∃! r : Region, r.holds pb a) ∧ ((∃ r : Region, r.holds pb a) → a < 0x10000)

/-- R60: CAMX, CAMY and FRAMES are unsigned and big-endian. -/
def Obligations.RegistersAreBigEndian : Prop :=
  ∀ s : State,
    s.camX = (s.mem.read 0x3603).toNat * 256 + (s.mem.read 0x3604).toNat ∧
    s.camY = (s.mem.read 0x3605).toNat * 256 + (s.mem.read 0x3606).toNat ∧
    s.frameCount =
      (s.mem.read 0x3607).toNat * 65536 + (s.mem.read 0x3608).toNat * 256 + (s.mem.read 0x3609).toNat

/-- The plane addresses of R67 are each reached by exactly the pixels of the four slots, or eight bits, of the byte
(20_memory.md section 3). -/
def Obligations.PlaneAddressesCoverThePlanes : Prop :=
  (∀ a k, a < 0x2400 → k < 4 →
    ∃! p : Nat × Nat, p.1 < 192 ∧ p.2 < 192 ∧ colourAddr p.1 p.2 = a ∧ colourShift p.1 = 2 * k) ∧
  (∀ pb a k, palBaseAddr pb ≤ a → a < palBaseAddr pb + 0x1200 → k < 8 →
    ∃! p : Nat × Nat, p.1 < 192 ∧ p.2 < 192 ∧ bankAddr pb p.1 p.2 = a ∧ bankShift p.1 = k) ∧
  (∀ pb x y, x < 192 → y < 192 → colourAddr x y < 0x2400 ∧ palBaseAddr pb ≤ bankAddr pb x y ∧
    bankAddr pb x y < palBaseAddr pb + 0x1200)

/-! ## PixelCodec -/

/-- R121: setPixel paints its pixel when that lies on the canvas and nothing otherwise, writes no byte but the pixel's
two, and answers OK. -/
def Obligations.SetPixelPaintsOnePixel : Prop :=
  Encodes 0x10 (fun a b _ _ k => .setPixel a b k) ∧
  ∀ (s : State) (x y : Field) (col : Byte), s.mem.wf = true →
    ∃ t, exec (.setPixel x y col) s = .next t ∧ Answers s t .ok 0 ∧
      Paints s t (fun rx ry => rx = x.toInt ∧ ry = y.toInt) col ∧
      WritesOnly s t (MayWrite s.palBase (.setPixel x y col)) ∧
      (¬ OnCanvas x.toInt y.toInt → t.mem = s.mem)

/-- R123: getPixel answers the colour of a canvas pixel, bits 7:3 and 23:8 zero, and OUT_OF_RANGE with data 0 elsewhere
(the spec's decision D9); it changes nothing but the response. -/
def Obligations.GetPixelAnswersTheColour : Prop :=
  Encodes 0x11 (fun a b _ _ _ => .getPixel a b) ∧
  ∀ (s : State) (x y : Field),
    (OnCanvas x.toInt y.toInt →
      exec (.getPixel x y) s = .next { s with responses := s.responses ++
        [⟨.ok, BitVec.ofNat 24 (colourAt s x.toInt.toNat y.toInt.toNat)⟩] } ∧
      colourAt s x.toInt.toNat y.toInt.toNat < 8) ∧
    (¬ OnCanvas x.toInt y.toInt →
      exec (.getPixel x y) s = .next { s with responses := s.responses ++ [⟨.outOfRange, 0⟩] })

/-- The round trip (40_pixel_codec.md section 5, "derived: from rule R120 and rule R122"): from any state, getPixel
after setPixel at a canvas pixel returns the colour set, and no byte but the pixel's two changed. -/
def Obligations.SetPixelGetPixelRoundTrip : Prop :=
  ∀ (s : State) (x y : Field) (col : Byte), s.mem.wf = true → OnCanvas x.toInt y.toInt →
    ∃ t u, exec (.setPixel x y col) s = .next t ∧ exec (.getPixel x y) t = .next u ∧
      u.responses = s.responses ++ [⟨.ok, 0⟩, ⟨.ok, BitVec.ofNat 24 (col.toNat % 8)⟩] ∧
      ∀ a, a ≠ x.toInt.toNat / 4 + y.toInt.toNat * 48 →
        a ≠ palBaseAddr s.palBase + x.toInt.toNat / 8 + y.toInt.toNat * 24 → u.mem.read a = s.mem.read a

/-- Isolation between pixels (40_pixel_codec.md section 5, "derived: from rule R120"): setPixel at (x, y) changes what
getPixel answers at no other coordinate. -/
def Obligations.SetPixelLeavesOtherPixelsAlone : Prop :=
  ∀ (s : State) (x y x' y' : Field) (col : Byte), s.mem.wf = true → (x', y') ≠ (x, y) →
    ∃ t u v, exec (.setPixel x y col) s = .next t ∧ exec (.getPixel x' y') t = .next u ∧
      exec (.getPixel x' y') s = .next v ∧ u.responses.getLast? = v.responses.getLast?

/-! ## PaletteRegisters -/

/-- R140: setPaletteA stores a[3:0] in PAL bits 7:4 and leaves bits 3:0 alone. -/
def Obligations.SetPaletteAWritesTheHighNibble : Prop :=
  Encodes 0x20 (fun a _ _ _ _ => .setPaletteA a) ∧
  ∀ (s : State) (v : Field), s.mem.wf = true →
    ∃ t, exec (.setPaletteA v) s = .next t ∧ Answers s t .ok 0 ∧ WritesOnly s t (· = 0x3601) ∧
      (t.mem.read 0x3601).toNat = v.toNat % 16 * 16 + (s.mem.read 0x3601).toNat % 16

/-- R141: setPaletteB stores a[3:0] in PAL bits 3:0 and leaves bits 7:4 alone. -/
def Obligations.SetPaletteBWritesTheLowNibble : Prop :=
  Encodes 0x21 (fun a _ _ _ _ => .setPaletteB a) ∧
  ∀ (s : State) (v : Field), s.mem.wf = true →
    ∃ t, exec (.setPaletteB v) s = .next t ∧ Answers s t .ok 0 ∧ WritesOnly s t (· = 0x3601) ∧
      (t.mem.read 0x3601).toNat = (s.mem.read 0x3601).toNat / 16 * 16 + v.toNat % 16

/-- R142: getPalettes answers the byte PAL, A in bits 7:4 and B in bits 3:0, and changes nothing. -/
def Obligations.GetPalettesAnswersPal : Prop :=
  Encodes 0x22 (fun _ _ _ _ _ => .getPalettes) ∧
  ∀ s : State, exec .getPalettes s =
      .next { s with responses := s.responses ++ [⟨.ok, BitVec.ofNat 24 (s.mem.read 0x3601).toNat⟩] } ∧
    (s.mem.read 0x3601).toNat = s.palA.toNat * 16 + s.palB.toNat

/-- R143: setBackground stores col[2:0] in BG bits 7:5, leaves bits 4:0 alone and repaints nothing. -/
def Obligations.SetBackgroundWritesTheTopBits : Prop :=
  Encodes 0x23 (fun _ _ _ _ k => .setBackground k) ∧
  ∀ (s : State) (col : Byte), s.mem.wf = true →
    ∃ t, exec (.setBackground col) s = .next t ∧ Answers s t .ok 0 ∧ WritesOnly s t (· = 0x3602) ∧
      (t.mem.read 0x3602).toNat = col.toNat % 8 * 32 + (s.mem.read 0x3602).toNat % 32 ∧ SamePicture s t

/-! ## ViewportState -/

/-- R160: setCamera stores both fields as they stand, unsigned and big-endian. -/
def Obligations.SetCameraStoresBothFields : Prop :=
  Encodes 0x30 (fun a b _ _ _ => .setCamera a b) ∧
  ∀ (s : State) (x y : Field), s.mem.wf = true →
    ∃ t, exec (.setCamera x y) s = .next t ∧ Answers s t .ok 0 ∧
      WritesOnly s t (fun a => 0x3603 ≤ a ∧ a ≤ 0x3606) ∧
      t.mem.read 0x3603 = x.extractLsb' 8 8 ∧ t.mem.read 0x3604 = x.extractLsb' 0 8 ∧
      t.mem.read 0x3605 = y.extractLsb' 8 8 ∧ t.mem.read 0x3606 = y.extractLsb' 0 8 ∧
      t.camX = x.toNat ∧ t.camY = y.toNat ∧ SamePicture s t

/-- R161: setClip stores the low byte of each operand, independently. -/
def Obligations.SetClipStoresTheLowBytes : Prop :=
  Encodes 0x31 (fun a b c d _ => .setClip a b c d) ∧
  ∀ (s : State) (x y w h : Field), s.mem.wf = true →
    ∃ t, exec (.setClip x y w h) s = .next t ∧ Answers s t .ok 0 ∧
      WritesOnly s t (fun a => 0x360A ≤ a ∧ a ≤ 0x360D) ∧
      t.clipX.toNat = x.toNat % 256 ∧ t.clipY.toNat = y.toNat % 256 ∧
      t.clipW.toNat = w.toNat % 256 ∧ t.clipH.toNat = h.toNat % 256 ∧
      t.mem.read 0x360A = t.clipX ∧ t.mem.read 0x360B = t.clipY ∧ t.mem.read 0x360C = t.clipW ∧
      t.mem.read 0x360D = t.clipH

/-- R162: resetClip stores (0, 0, 192, 192). -/
def Obligations.ResetClipStoresTheFullCanvas : Prop :=
  Encodes 0x32 (fun _ _ _ _ _ => .resetClip) ∧
  ∀ s : State, s.mem.wf = true →
    ∃ t, exec .resetClip s = .next t ∧ Answers s t .ok 0 ∧
      WritesOnly s t (fun a => 0x360A ≤ a ∧ a ≤ 0x360D) ∧
      t.mem.read 0x360A = 0 ∧ t.mem.read 0x360B = 0 ∧ t.mem.read 0x360C = 192 ∧ t.mem.read 0x360D = 192

/-! ## Rasterizer -/

/-- R184: fillRect is its double loop of Plot, moved by the camera; w <= 0 or h <= 0 plots nothing; the answer is OK. -/
def Obligations.FillRectIsItsLoop : Prop :=
  Encodes 0x41 (fun a b c d k => .fillRect a b c d k) ∧
  ∀ (s : State) (x y w h : Field) (col : Byte),
    exec (.fillRect x y w h col) s = .next (respond .ok 0 (s.setMem (plotAll s.palBase col
      (fillLoop x.toInt y.toInt w.toInt h.toInt s.camX s.camY) s.mem)))

/-- R182: drawRectBorder is its double loop of Plot on the border of the box, moved by the camera; with w, h >= 3 it
generates 2w + 2h - 4 pixels. -/
def Obligations.DrawRectBorderIsItsLoop : Prop :=
  Encodes 0x40 (fun a b c d k => .drawRectBorder a b c d k) ∧
  (∀ (s : State) (x y w h : Field) (col : Byte),
    exec (.drawRectBorder x y w h col) s = .next (respond .ok 0 (s.setMem (plotAll s.palBase col
      (borderLoop x.toInt y.toInt w.toInt h.toInt s.camX s.camY) s.mem)))) ∧
  (∀ x y w h cx cy : Int, 3 ≤ w → 3 ≤ h → ((borderLoop x y w h cx cy).length : Int) = 2 * w + 2 * h - 4)

/-- R186: drawLine is its loop of Plot, moved by the camera. -/
def Obligations.DrawLineIsItsLoop : Prop :=
  Encodes 0x42 (fun a b c d k => .drawLine a b c d k) ∧
  ∀ (s : State) (x1 y1 x2 y2 : Field) (col : Byte),
    exec (.drawLine x1 y1 x2 y2 col) s = .next (respond .ok 0 (s.setMem (plotAll s.palBase col
      (lineLoop x1.toInt y1.toInt x2.toInt y2.toInt s.camX s.camY) s.mem)))

/-- The closed form of fillRect and of drawRectBorder (43_rasterizer.md section 3, "derived: from rule R184 and rule
R181"): a canvas pixel in the box (on its border) takes the colour, every other keeps its own, no other byte of M
changes. -/
def Obligations.RectanglesPaintTheirClosedForm : Prop :=
  ∀ (s : State) (x y w h : Field) (col : Byte), s.mem.wf = true →
    (∃ t, exec (.fillRect x y w h col) s = .next t ∧ Answers s t .ok 0 ∧ Paints s t (InBox s x y w h) col) ∧
    (∃ t, exec (.drawRectBorder x y w h col) s = .next t ∧ Answers s t .ok 0 ∧ Paints s t (OnBorder s x y w h) col)

/-- The pixels of drawLine as a set (R186, 43_rasterizer.md section 4): one per column of a line that is not vertical,
the row the floor of the exact rational interpolation, the far end excluded; the rows of a vertical line likewise. -/
def Obligations.DrawLinePaintsItsPixels : Prop :=
  ∀ (s : State) (x1 y1 x2 y2 : Field) (col : Byte), s.mem.wf = true →
    ∃ t, exec (.drawLine x1 y1 x2 y2 col) s = .next t ∧ Answers s t .ok 0 ∧ Paints s t (OnLine s x1 y1 x2 y2) col

/-- R183: a border with w or h of 1 (or 2, or less) is the filled box; with w = h = 1 one point, with w = 1 the vertical
run of h pixels, with h = 1 the horizontal run of w pixels. -/
def Obligations.ThinBordersAreFilledBoxes : Prop :=
  (∀ (s : State) (x y w h : Field) (col : Byte), w.toInt ≤ 2 ∨ h.toInt ≤ 2 →
    exec (.drawRectBorder x y w h col) s = exec (.fillRect x y w h col) s) ∧
  (∀ x y cx cy h : Int, borderLoop x y 1 h cx cy = (forRange 0 (h - 1)).map fun j => (x - cx, y + j - cy)) ∧
  (∀ x y cx cy w : Int, borderLoop x y w 1 cx cy = (forRange 0 (w - 1)).map fun i => (x + i - cx, y - cy))

/-- 43_rasterizer.md section 1 ("derived: from 40_pixel_codec.md rules R120 and R125"): the state after plotting depends
only on the set of canvas pixels plotted, not on order or repetition. -/
def Obligations.PlottingDependsOnTheSetOnly : Prop :=
  ∀ (pb : Config.PalBase) (col : Byte) (ps qs : List (Int × Int)) (m : Memory), m.wf = true →
    (∀ rx ry, OnCanvas rx ry → ((rx, ry) ∈ ps ↔ (rx, ry) ∈ qs)) → plotAll pb col ps m = plotAll pb col qs m

/-- LineY is y1 plus the floor of the exact quotient, and has the properties that 43_rasterizer.md section 4 lists
("derived: from rule R186"; the spec's decision D12). -/
def Obligations.LineYProperties : Prop :=
  (∀ y1 dy dx k : Int, 0 < dx → lineY y1 dy dx k = y1 + ⌊((dy * k : Int) : ℚ) / (dx : ℚ)⌋) ∧
  (∀ y1 dy dx k : Int, 0 < dx → 0 ≤ k → k < dx →
    lineY y1 dy dx 0 = y1 ∧
    (∀ t, lineY (y1 + t) dy dx k = lineY y1 dy dx k + t) ∧
    lineY y1 0 dx k = y1 ∧
    lineY y1 dx dx k = y1 + k ∧
    (0 < dy → y1 ≤ lineY y1 dy dx k ∧ lineY y1 dy dx k ≤ y1 + dy - 1) ∧
    (dy < 0 → y1 + dy ≤ lineY y1 dy dx k ∧ lineY y1 dy dx k ≤ y1) ∧
    (∀ k', k ≤ k' → k' < dx → (0 ≤ dy → lineY y1 dy dx k ≤ lineY y1 dy dx k') ∧
      (dy ≤ 0 → lineY y1 dy dx k' ≤ lineY y1 dy dx k))) ∧
  lineY 0 (-3) 4 3 = -3

/-- The counts of drawLine (R187, 43_rasterizer.md section 4): one pixel in each column from the smaller x to the larger
minus 1, or in each row of a vertical line; none for a point; swapped end points give the same pixels; no intermediate
reaches 2^32. -/
def Obligations.LinesCountTheirPixels : Prop :=
  (∀ x1 y1 x2 y2 cx cy : Int, x1 ≠ x2 →
    (lineLoop x1 y1 x2 y2 cx cy).map (fun p => p.1 + cx) = forRange (min x1 x2) (max x1 x2 - 1) ∧
    ((lineLoop x1 y1 x2 y2 cx cy).length : Int) = |x2 - x1|) ∧
  (∀ x y1 y2 cx cy : Int,
    (lineLoop x y1 x y2 cx cy).map (fun p => p.2 + cy) = forRange (min y1 y2) (max y1 y2 - 1) ∧
    ((lineLoop x y1 x y2 cx cy).length : Int) = |y2 - y1|) ∧
  (∀ x1 y1 x2 y2 cx cy : Int, lineLoop x1 y1 x2 y2 cx cy = lineLoop x2 y2 x1 y1 cx cy) ∧
  (∀ x1 y1 x2 y2 : Field, ∀ x : Int, x1.toInt ≤ x → x < x2.toInt →
    |(y2.toInt - y1.toInt) * (x - x1.toInt)| < 2 ^ 32) ∧
  lineLoop 0 0 3 6 0 0 = [(0, 0), (1, 2), (2, 4)] ∧
  lineLoop 0 5 4 2 0 0 = [(0, 5), (1, 4), (2, 3), (3, 2)]

/-- R189: clearScreen fills both planes with the background colour and changes nothing else. -/
def Obligations.ClearScreenFillsBothPlanes : Prop :=
  Encodes 0x43 (fun _ _ _ _ _ => .clearScreen) ∧
  ∀ s : State, s.mem.wf = true →
    ∃ t, exec .clearScreen s = .next t ∧ Answers s t .ok 0 ∧ WritesOnly s t (InPlanes s.palBase) ∧
      (∀ a, a < 0x2400 → (t.mem.read a).toNat = (s.mem.read 0x3602).toNat / 32 % 4 * 0x55) ∧
      (∀ a, palBaseAddr s.palBase ≤ a → a < palBaseAddr s.palBase + 0x1200 →
        (t.mem.read a).toNat = (s.mem.read 0x3602).toNat / 128 * 0xFF) ∧
      (∀ x y : Field, OnCanvas x.toInt y.toInt → ∃ u, exec (.getPixel x y) t = .next u ∧
        u.responses = t.responses ++ [⟨.ok, BitVec.ofNat 24 ((s.mem.read 0x3602).toNat / 32)⟩])

/-- 43_rasterizer.md section 6 ("derived: from rules R180, R182, R184, R186"): the camera is a pure shift: operands and
camera moved together leave the painted raw pixels the same, for each of the three drawing commands. -/
def Obligations.CameraIsAPureShift : Prop :=
  ∀ (s s' : State) (dx dy : Int) (x y x' y' w h x2 y2 x2' y2' : Field) (col : Byte),
    s.mem.wf = true → s'.mem.wf = true → SamePicture s s' →
    (s'.camX : Int) = s.camX + dx → (s'.camY : Int) = s.camY + dy →
    x'.toInt = x.toInt + dx → y'.toInt = y.toInt + dy → x2'.toInt = x2.toInt + dx → y2'.toInt = y2.toInt + dy →
    (∃ t t', exec (.fillRect x y w h col) s = .next t ∧ exec (.fillRect x' y' w h col) s' = .next t' ∧
      SamePicture t t') ∧
    (∃ t t', exec (.drawRectBorder x y w h col) s = .next t ∧ exec (.drawRectBorder x' y' w h col) s' = .next t' ∧
      SamePicture t t') ∧
    (∃ t t', exec (.drawLine x y x2 y2 col) s = .next t ∧ exec (.drawLine x' y' x2' y2' col) s' = .next t' ∧
      SamePicture t t')

/-- How far the camera reaches (42_viewport.md R163): with a camera register above 32767 no line pixel lands on the
canvas, and with 65534 or 65535 no pixel of any shape does. -/
def Obligations.FarCameraHidesShapes : Prop :=
  ∀ (s : State) (x y w h : Field) (col : Byte),
    ((32767 < s.camX ∨ 32767 < s.camY) →
      exec (.drawLine x y w h col) s = .next (respond .ok 0 s)) ∧
    ((65534 ≤ s.camX ∨ 65534 ≤ s.camY) →
      exec (.fillRect x y w h col) s = .next (respond .ok 0 s) ∧
      exec (.drawRectBorder x y w h col) s = .next (respond .ok 0 s))

/-! ## FrameClock and the bulk load -/

/-- advance (44_frame_clock.md) adds 1 to FRAMES modulo 2^24 and writes no other byte; n advances add n, so that 2^24 of
them bring the counter back to its value, which from a value other than 0 is what the file marks "[derived]": "and, from
any value, to that same value". -/
def Obligations.AdvanceCountsModulo2To24 : Prop :=
  Encodes 0x50 (fun _ _ _ _ _ => .advance) ∧
  (∀ s : State, s.mem.wf = true →
    ∃ t, exec .advance s = .next t ∧ Answers s t .ok 0 ∧ WritesOnly s t (fun a => 0x3607 ≤ a ∧ a ≤ 0x3609) ∧
      t.frameCount = (s.frameCount + 1) % 2 ^ 24) ∧
  (∀ (n : Nat) (s : State), s.mem.wf = true →
    ∃ t, execAll (List.replicate n .advance) s = .next t ∧ t.frameCount = (s.frameCount + n) % 2 ^ 24)

/-- R221: frames answers FRAMES in 24 bits and changes nothing. -/
def Obligations.FramesAnswersTheCounter : Prop :=
  Encodes 0x51 (fun _ _ _ _ _ => .frames) ∧
  ∀ s : State, ∃ data : BitVec 24, data.toNat = s.frameCount ∧
    exec .frames s = .next { s with responses := s.responses ++ [⟨.ok, data⟩] }

/-- R230, R252: a load takes exactly LEN payload bytes from the port; with LEN = 0x3000 they are copied verbatim to
0x3F49..0x6F48 and nothing else changes, with any other LEN the answer is BAD_LENGTH and M is unchanged. -/
def Obligations.LoadCopiesThePayloadOrRejects : Prop :=
  (∀ (a b c d : Field) (k : Byte) (payload rest : List Byte), payload.length = (c ++ d).toNat →
    decode (wordBytes (packWord 0x60 a b c d k) ++ (payload ++ rest)) =
      .instr (.loadSpriteSheet (c ++ d) payload) rest) ∧
  (∀ (s : State) (payload : List Byte), s.mem.wf = true → payload.length = 0x3000 →
    ∃ t, exec (.loadSpriteSheet 0x3000 payload) s = .next t ∧ Answers s t .ok 0 ∧
      WritesOnly s t (fun a => 0x3F49 ≤ a ∧ a ≤ 0x6F48) ∧
      ∀ k, k < 0x3000 → some (t.mem.read (0x3F49 + k)) = payload[k]?) ∧
  (∀ (s : State) (len : BitVec 32) (payload : List Byte), len ≠ 0x3000 →
    exec (.loadSpriteSheet len payload) s = .next { s with responses := s.responses ++ [⟨.badLength, 0⟩] })
end

