-- ==== Sys2Proof/Laws/Encoding.lean ====
section
/-! SUPPORT. The encoding taken apart: the fields of a packed word, the word that ten bytes carry, and what the decoder
answers on a word, so that no later proof looks at a bit position again. -/

namespace Sys2Proof

/-! ## Fields of a packed word -/

@[simp] theorem fieldOp_packWord (op : Byte) (a b c d : Field) (k : Byte) :
    fieldOp (packWord op a b c d k) = op := by
  apply BitVec.eq_of_getLsbD_eq
  intro i hi
  simp only [fieldOp, packWord, BitVec.getLsbD_extractLsb', BitVec.getLsbD_append]
  grind

@[simp] theorem fieldA_packWord (op : Byte) (a b c d : Field) (k : Byte) :
    fieldA (packWord op a b c d k) = a := by
  apply BitVec.eq_of_getLsbD_eq
  intro i hi
  simp only [fieldA, packWord, BitVec.getLsbD_extractLsb', BitVec.getLsbD_append]
  grind

@[simp] theorem fieldB_packWord (op : Byte) (a b c d : Field) (k : Byte) :
    fieldB (packWord op a b c d k) = b := by
  apply BitVec.eq_of_getLsbD_eq
  intro i hi
  simp only [fieldB, packWord, BitVec.getLsbD_extractLsb', BitVec.getLsbD_append]
  grind

@[simp] theorem fieldC_packWord (op : Byte) (a b c d : Field) (k : Byte) :
    fieldC (packWord op a b c d k) = c := by
  apply BitVec.eq_of_getLsbD_eq
  intro i hi
  simp only [fieldC, packWord, BitVec.getLsbD_extractLsb', BitVec.getLsbD_append]
  grind

@[simp] theorem fieldD_packWord (op : Byte) (a b c d : Field) (k : Byte) :
    fieldD (packWord op a b c d k) = d := by
  apply BitVec.eq_of_getLsbD_eq
  intro i hi
  simp only [fieldD, packWord, BitVec.getLsbD_extractLsb', BitVec.getLsbD_append]
  grind

@[simp] theorem fieldCol_packWord (op : Byte) (a b c d : Field) (k : Byte) :
    fieldCol (packWord op a b c d k) = k := by
  apply BitVec.eq_of_getLsbD_eq
  intro i hi
  simp only [fieldCol, packWord, BitVec.getLsbD_extractLsb', BitVec.getLsbD_append]
  grind

@[simp] theorem fieldLen_packWord (op : Byte) (a b c d : Field) (k : Byte) :
    fieldLen (packWord op a b c d k) = c ++ d := by
  simp [fieldLen]

/-- A word is its six fields (R92). -/
theorem packWord_fields (w : CommandWord) :
    packWord (fieldOp w) (fieldA w) (fieldB w) (fieldC w) (fieldD w) (fieldCol w) = w := by
  apply BitVec.eq_of_getLsbD_eq
  intro i hi
  simp only [packWord, fieldOp, fieldA, fieldB, fieldC, fieldD, fieldCol, BitVec.getLsbD_extractLsb',
    BitVec.getLsbD_append]
  grind

/-- A 16-bit field is its two bytes (R93). -/
theorem bytes_of_field (w : CommandWord) (k : Nat) :
    (w.extractLsb' (k + 8) 8 ++ w.extractLsb' k 8 : BitVec 16) = w.extractLsb' k 16 := by
  apply BitVec.eq_of_getLsbD_eq
  intro i hi
  simp only [BitVec.getLsbD_extractLsb', BitVec.getLsbD_append]
  grind

/-- The two halves of LEN (R103). -/
theorem halves_of_len (len : BitVec 32) : len.extractLsb' 16 16 ++ len.extractLsb' 0 16 = len := by
  apply BitVec.eq_of_getLsbD_eq
  intro i hi
  simp only [BitVec.getLsbD_extractLsb', BitVec.getLsbD_append]
  grind

/-! ## The port -/

@[simp] theorem wordBytes_length (w : CommandWord) : (wordBytes w).length = 10 := rfl

/-- The decoder on the ten bytes of a word (R93). -/
theorem decode_wordBytes (w : CommandWord) (rest : List Byte) : decode (wordBytes w ++ rest) = decodeWord w rest := by
  show decodeWord (wordOfBytes _ _ _ _ _ _ _ _ _ _) rest = _
  have h : wordOfBytes (w.extractLsb' 72 8) (w.extractLsb' 64 8) (w.extractLsb' 56 8) (w.extractLsb' 48 8)
      (w.extractLsb' 40 8) (w.extractLsb' 32 8) (w.extractLsb' 24 8) (w.extractLsb' 16 8) (w.extractLsb' 8 8)
      (w.extractLsb' 0 8) = w := by
    unfold wordOfBytes
    rw [show (w.extractLsb' 64 8 ++ w.extractLsb' 56 8 : BitVec 16) = fieldA w from bytes_of_field w 56,
      show (w.extractLsb' 48 8 ++ w.extractLsb' 40 8 : BitVec 16) = fieldB w from bytes_of_field w 40,
      show (w.extractLsb' 32 8 ++ w.extractLsb' 24 8 : BitVec 16) = fieldC w from bytes_of_field w 24,
      show (w.extractLsb' 16 8 ++ w.extractLsb' 8 8 : BitVec 16) = fieldD w from bytes_of_field w 8]
    exact packWord_fields w
  rw [h]

theorem hasBytes_iff (n : Nat) (bs : List Byte) : hasBytes n bs = true ↔ n ≤ bs.length := by
  induction n generalizing bs with
  | zero => simp [hasBytes]
  | succ n ih => cases bs <;> simp [hasBytes, ih]

/-! ## The decoder by operation code (R99) -/

theorem decodeWord_setPixel {w : CommandWord} (h : fieldOp w = 0x10) (rest : List Byte) :
    decodeWord w rest = .instr (.setPixel (fieldA w) (fieldB w) (fieldCol w)) rest := by simp [decodeWord, h]

theorem decodeWord_getPixel {w : CommandWord} (h : fieldOp w = 0x11) (rest : List Byte) :
    decodeWord w rest = .instr (.getPixel (fieldA w) (fieldB w)) rest := by simp [decodeWord, h]

theorem decodeWord_setPaletteA {w : CommandWord} (h : fieldOp w = 0x20) (rest : List Byte) :
    decodeWord w rest = .instr (.setPaletteA (fieldA w)) rest := by simp [decodeWord, h]

theorem decodeWord_setPaletteB {w : CommandWord} (h : fieldOp w = 0x21) (rest : List Byte) :
    decodeWord w rest = .instr (.setPaletteB (fieldA w)) rest := by simp [decodeWord, h]

theorem decodeWord_getPalettes {w : CommandWord} (h : fieldOp w = 0x22) (rest : List Byte) :
    decodeWord w rest = .instr .getPalettes rest := by simp [decodeWord, h]

theorem decodeWord_setBackground {w : CommandWord} (h : fieldOp w = 0x23) (rest : List Byte) :
    decodeWord w rest = .instr (.setBackground (fieldCol w)) rest := by simp [decodeWord, h]

theorem decodeWord_setCamera {w : CommandWord} (h : fieldOp w = 0x30) (rest : List Byte) :
    decodeWord w rest = .instr (.setCamera (fieldA w) (fieldB w)) rest := by simp [decodeWord, h]

theorem decodeWord_setClip {w : CommandWord} (h : fieldOp w = 0x31) (rest : List Byte) :
    decodeWord w rest = .instr (.setClip (fieldA w) (fieldB w) (fieldC w) (fieldD w)) rest := by simp [decodeWord, h]

theorem decodeWord_resetClip {w : CommandWord} (h : fieldOp w = 0x32) (rest : List Byte) :
    decodeWord w rest = .instr .resetClip rest := by simp [decodeWord, h]

theorem decodeWord_drawRectBorder {w : CommandWord} (h : fieldOp w = 0x40) (rest : List Byte) :
    decodeWord w rest = .instr (.drawRectBorder (fieldA w) (fieldB w) (fieldC w) (fieldD w) (fieldCol w)) rest := by simp [decodeWord, h]

theorem decodeWord_fillRect {w : CommandWord} (h : fieldOp w = 0x41) (rest : List Byte) :
    decodeWord w rest = .instr (.fillRect (fieldA w) (fieldB w) (fieldC w) (fieldD w) (fieldCol w)) rest := by simp [decodeWord, h]

theorem decodeWord_drawLine {w : CommandWord} (h : fieldOp w = 0x42) (rest : List Byte) :
    decodeWord w rest = .instr (.drawLine (fieldA w) (fieldB w) (fieldC w) (fieldD w) (fieldCol w)) rest := by simp [decodeWord, h]

theorem decodeWord_clearScreen {w : CommandWord} (h : fieldOp w = 0x43) (rest : List Byte) :
    decodeWord w rest = .instr .clearScreen rest := by simp [decodeWord, h]

theorem decodeWord_advance {w : CommandWord} (h : fieldOp w = 0x50) (rest : List Byte) :
    decodeWord w rest = .instr .advance rest := by simp [decodeWord, h]

theorem decodeWord_frames {w : CommandWord} (h : fieldOp w = 0x51) (rest : List Byte) :
    decodeWord w rest = .instr .frames rest := by simp [decodeWord, h]

theorem decodeWord_loadSpriteSheet {w : CommandWord} (h : fieldOp w = 0x60) {rest : List Byte}
    (hl : (fieldLen w).toNat ≤ rest.length) :
    decodeWord w rest =
      .instr (.loadSpriteSheet (fieldLen w) (rest.take (fieldLen w).toNat)) (rest.drop (fieldLen w).toNat) := by
  simp [decodeWord, h, (hasBytes_iff _ _).2 hl]

theorem decodeWord_short {w : CommandWord} (h : fieldOp w = 0x60) {rest : List Byte}
    (hl : rest.length < (fieldLen w).toNat) : decodeWord w rest = .incomplete := by
  have : ¬ hasBytes (fieldLen w).toNat rest = true := by rw [hasBytes_iff]; omega
  simp [decodeWord, h, this]

/-- A word takes from the bytes behind it exactly the payload it announces, and waits for it (R103). -/
theorem decodeWord_takes (w : CommandWord) (rest : List Byte) :
    (payloadLength w ≤ rest.length ∧
      ((∃ i, decodeWord w rest = .instr i (rest.drop (payloadLength w))) ∨
        ∃ op, decodeWord w rest = .illegal op (rest.drop (payloadLength w)))) ∨
    (rest.length < payloadLength w ∧ decodeWord w rest = .incomplete) := by
  by_cases h : fieldOp w = 0x60
  · have hp : payloadLength w = (fieldLen w).toNat := if_pos h
    rw [hp]
    by_cases hl : (fieldLen w).toNat ≤ rest.length
    · exact .inl ⟨hl, .inl ⟨_, decodeWord_loadSpriteSheet h hl⟩⟩
    · exact .inr ⟨by omega, decodeWord_short h (by omega)⟩
  · have hp : payloadLength w = 0 := if_neg h
    rw [hp]
    refine .inl ⟨Nat.zero_le _, ?_⟩
    unfold decodeWord
    split <;> simp_all

/-- The bytes of the word that ten bytes carry are those ten (R93). -/
theorem wordBytes_wordOfBytes (b0 b1 b2 b3 b4 b5 b6 b7 b8 b9 : Byte) :
    wordBytes (wordOfBytes b0 b1 b2 b3 b4 b5 b6 b7 b8 b9) = [b0, b1, b2, b3, b4, b5, b6, b7, b8, b9] := by
  unfold wordBytes wordOfBytes packWord
  simp only [List.cons.injEq, and_true]
  refine ⟨?_, ?_, ?_, ?_, ?_, ?_, ?_, ?_, ?_, ?_⟩ <;>
    (apply BitVec.eq_of_getLsbD_eq; intro i hi
     simp only [BitVec.getLsbD_extractLsb', BitVec.getLsbD_append]; grind)

/-- The bytes are exactly one command: a word with the payload it announces and nothing behind it (R93, R103). -/
theorem isOneCommand_iff (bytes : List Byte) :
    isOneCommand bytes = true ↔
      ∃ (w : CommandWord) (payload : List Byte), bytes = wordBytes w ++ payload ∧ payload.length = payloadLength w := by
  have key : ∀ (w : CommandWord) (rest : List Byte),
      isOneCommand (wordBytes w ++ rest) = true ↔ rest.length = payloadLength w := by
    intro w rest
    unfold isOneCommand
    rw [decode_wordBytes]
    rcases decodeWord_takes w rest with ⟨hl, ⟨i, h⟩ | ⟨op, h⟩⟩ | ⟨hl, h⟩ <;> rw [h]
    · simp only [List.isEmpty_iff, List.drop_eq_nil_iff]; omega
    · simp only [List.isEmpty_iff, List.drop_eq_nil_iff]; omega
    · simp only [Bool.false_eq_true, false_iff]; omega
  constructor
  · intro h
    match bytes with
    | b0 :: b1 :: b2 :: b3 :: b4 :: b5 :: b6 :: b7 :: b8 :: b9 :: rest =>
      have e : b0 :: b1 :: b2 :: b3 :: b4 :: b5 :: b6 :: b7 :: b8 :: b9 :: rest =
          wordBytes (wordOfBytes b0 b1 b2 b3 b4 b5 b6 b7 b8 b9) ++ rest := by
        rw [wordBytes_wordOfBytes]; rfl
      exact ⟨_, rest, e, (key _ _).1 (e ▸ h)⟩
    | [] | [_] | [_, _] | [_, _, _] | [_, _, _, _] | [_, _, _, _, _] | [_, _, _, _, _, _] | [_, _, _, _, _, _, _]
    | [_, _, _, _, _, _, _, _] | [_, _, _, _, _, _, _, _, _] => cases h
  · rintro ⟨w, payload, rfl, hl⟩
    exact (key w payload).2 hl

end Sys2Proof
end

