-- ==== Sys2Proof/Laws/Memory.lean ====
section
/-! SUPPORT. What the operations over M do, said once: the canonical form is kept, a byte reads back as written, every
other byte is left alone, and two canonical memories that read alike are equal. -/

namespace Sys2Proof.Machine

/-- A cell in front of a canonical memory, taken apart. -/
@[simp] theorem Memory.wfFrom_cons (lo a : Nat) (v : Byte) (m : Memory) :
    Memory.wfFrom lo ((a, v) :: m) = true ↔
      lo ≤ a ∧ a < 0x10000 ∧ v ≠ Memory.unlisted a ∧ Memory.wfFrom (a + 1) m = true := by
  simp [Memory.wfFrom, and_assoc]

@[simp] theorem Memory.wfFrom_nil (lo : Nat) : Memory.wfFrom lo [] = true := rfl

@[simp] theorem Memory.read_nil (a : Nat) : Memory.read [] a = Memory.unlisted a := rfl

theorem Memory.read_cons (x : Nat) (v : Byte) (m : Memory) (a : Nat) :
    Memory.read ((x, v) :: m) a = if x = a then v else Memory.read m a := rfl

/-- The lower bound of a canonical memory may be lowered. -/
theorem Memory.wfFrom_mono {lo lo' : Nat} {m : Memory} (hl : lo' ≤ lo) (h : Memory.wfFrom lo m = true) :
    Memory.wfFrom lo' m = true := by
  cases m with
  | nil => rfl
  | cons c m =>
    obtain ⟨a, v⟩ := c
    simp only [Memory.wfFrom_cons] at h ⊢
    exact ⟨le_trans hl h.1, h.2⟩

/-- Below its first address a canonical memory reads as unlisted. -/
theorem Memory.read_below_first {lo a : Nat} {m : Memory} (h : Memory.wfFrom lo m = true) (ha : a < lo) :
    m.read a = Memory.unlisted a := by
  induction m generalizing lo with
  | nil => rfl
  | cons c m ih =>
    obtain ⟨x, v⟩ := c
    simp only [Memory.wfFrom_cons] at h
    rw [Memory.read_cons, if_neg (by omega)]
    exact ih h.2.2.2 (by omega)

/-- Outside M's 65536 addresses a canonical memory lists nothing. -/
theorem Memory.read_above {lo a : Nat} {m : Memory} (h : Memory.wfFrom lo m = true) (ha : 0x10000 ≤ a) :
    m.read a = Memory.unlisted a := by
  induction m generalizing lo with
  | nil => rfl
  | cons c m ih =>
    obtain ⟨x, v⟩ := c
    simp only [Memory.wfFrom_cons] at h
    rw [Memory.read_cons, if_neg (by omega)]
    exact ih h.2.2.2

theorem Memory.wfFrom_put {lo a : Nat} {v : Byte} {m : Memory} (hl : lo ≤ a) (ha : a < 0x10000)
    (h : Memory.wfFrom (a + 1) m = true) : Memory.wfFrom lo (Memory.put a v m) = true := by
  unfold Memory.put
  split
  · exact Memory.wfFrom_mono (by omega) h
  · next hv => simp only [Memory.wfFrom_cons]; exact ⟨hl, ha, hv, h⟩

theorem Memory.read_put {a x : Nat} {v : Byte} {m : Memory} (h : Memory.wfFrom (a + 1) m = true) :
    (Memory.put a v m).read x = if x = a then v else m.read x := by
  unfold Memory.put
  split
  · next hv =>
    split
    · next hx => rw [hx, hv, Memory.read_below_first h (by omega)]
    · rfl
  · rw [Memory.read_cons]
    by_cases hx : a = x
    · rw [if_pos hx, if_pos hx.symm]
    · rw [if_neg hx, if_neg (Ne.symm hx)]

/-- `overwrite` keeps the canonical form. -/
theorem Memory.wfFrom_overwrite {a : Nat} {bs : List Byte} {m : Memory} (hb : a + bs.length ≤ 0x10000)
    (h : Memory.wfFrom a m = true) : Memory.wfFrom a (Memory.overwrite a bs m) = true := by
  induction bs generalizing a m with
  | nil => cases m <;> exact h
  | cons b bs ih =>
    simp only [List.length_cons] at hb
    cases m with
    | nil => exact Memory.wfFrom_put le_rfl (by omega) (ih (by omega) rfl)
    | cons c m =>
      obtain ⟨x, v⟩ := c
      have h' := h
      simp only [Memory.wfFrom_cons] at h'
      simp only [Memory.overwrite]
      split
      · next hx =>
        subst hx
        exact Memory.wfFrom_put le_rfl (by omega) (ih (by omega) h'.2.2.2)
      · next hx =>
        refine Memory.wfFrom_put le_rfl (by omega) (ih (by omega) ?_)
        simp only [Memory.wfFrom_cons]
        exact ⟨by omega, h'.2⟩

/-- What `overwrite` writes and what it leaves alone. -/
theorem Memory.read_overwrite {a x : Nat} {bs : List Byte} {m : Memory} (hb : a + bs.length ≤ 0x10000)
    (h : Memory.wfFrom a m = true) :
    (Memory.overwrite a bs m).read x = if a ≤ x ∧ x < a + bs.length then bs.getD (x - a) 0 else m.read x := by
  induction bs generalizing a m with
  | nil =>
    have : ¬ (a ≤ x ∧ x < a + ([] : List Byte).length) := by simp
    rw [if_neg this]
    cases m <;> rfl
  | cons b bs ih =>
    simp only [List.length_cons] at hb ⊢
    have key : ∀ n : Memory, Memory.wfFrom (a + 1) n = true → (x ≠ a → n.read x = m.read x) →
        (Memory.put a b (Memory.overwrite (a + 1) bs n)).read x =
          if a ≤ x ∧ x < a + (bs.length + 1) then (b :: bs).getD (x - a) 0 else m.read x := by
      intro n hn hr
      rw [Memory.read_put (Memory.wfFrom_overwrite (by omega) hn), ih (by omega) hn]
      by_cases hx : x = a
      · subst hx; simp
      · rw [if_neg hx]
        by_cases hin : a ≤ x ∧ x < a + (bs.length + 1)
        · rw [if_pos hin, if_pos (by omega)]
          obtain ⟨k, hk⟩ : ∃ k, x - a = k + 1 := ⟨x - a - 1, by omega⟩
          rw [hk, show x - (a + 1) = k by omega]
          rfl
        · rw [if_neg hin, if_neg (by omega), hr hx]
    cases m with
    | nil => exact key [] rfl fun _ => rfl
    | cons c m =>
      obtain ⟨y, v⟩ := c
      have h' := h
      simp only [Memory.wfFrom_cons] at h'
      simp only [Memory.overwrite]
      split
      · next hy =>
        subst hy
        exact key m h'.2.2.2 fun hx => by rw [Memory.read_cons, if_neg (Ne.symm hx)]
      · next hy =>
        refine key ((y, v) :: m) ?_ fun _ => rfl
        simp only [Memory.wfFrom_cons]
        exact ⟨by omega, h'.2⟩

theorem Memory.wfFrom_store {lo a : Nat} {bs : List Byte} {m : Memory} (hl : lo ≤ a)
    (hb : a + bs.length ≤ 0x10000) (h : Memory.wfFrom lo m = true) :
    Memory.wfFrom lo (m.store a bs) = true := by
  induction m generalizing lo with
  | nil => exact Memory.wfFrom_mono hl (Memory.wfFrom_overwrite hb rfl)
  | cons c m ih =>
    obtain ⟨x, v⟩ := c
    have h' := h
    simp only [Memory.wfFrom_cons] at h'
    simp only [Memory.store]
    split
    · next hx =>
      simp only [Memory.wfFrom_cons]
      exact ⟨h'.1, h'.2.1, h'.2.2.1, ih (by omega) h'.2.2.2⟩
    · next hx =>
      refine Memory.wfFrom_mono hl (Memory.wfFrom_overwrite hb ?_)
      simp only [Memory.wfFrom_cons]
      exact ⟨by omega, h'.2⟩

/-- A store inside M keeps the canonical form. -/
theorem Memory.wf_store {a : Nat} {bs : List Byte} {m : Memory} (hb : a + bs.length ≤ 0x10000)
    (h : m.wf = true) : (m.store a bs).wf = true :=
  Memory.wfFrom_store (Nat.zero_le a) hb h

theorem Memory.read_storeFrom {lo a x : Nat} {bs : List Byte} {m : Memory}
    (hb : a + bs.length ≤ 0x10000) (h : Memory.wfFrom lo m = true) :
    (m.store a bs).read x = if a ≤ x ∧ x < a + bs.length then bs.getD (x - a) 0 else m.read x := by
  induction m generalizing lo with
  | nil => exact Memory.read_overwrite hb rfl
  | cons c m ih =>
    obtain ⟨y, v⟩ := c
    have h' := h
    simp only [Memory.wfFrom_cons] at h'
    simp only [Memory.store]
    split
    · next hy =>
      rw [Memory.read_cons, Memory.read_cons, ih h'.2.2.2]
      by_cases hx : y = x
      · rw [if_pos hx, if_pos hx, if_neg (by omega)]
      · rw [if_neg hx, if_neg hx]
    · next hy =>
      refine Memory.read_overwrite hb ?_
      simp only [Memory.wfFrom_cons]
      exact ⟨by omega, h'.2⟩

/-- The store law: byte `a + k` reads as `bs[k]`, every other byte as before. -/
theorem Memory.read_store {a x : Nat} {bs : List Byte} {m : Memory} (hb : a + bs.length ≤ 0x10000)
    (h : m.wf = true) :
    (m.store a bs).read x = if a ≤ x ∧ x < a + bs.length then bs.getD (x - a) 0 else m.read x :=
  Memory.read_storeFrom hb h

/-- The store law outside the stored bytes. -/
theorem Memory.read_store_outside {a x : Nat} {bs : List Byte} {m : Memory} (hb : a + bs.length ≤ 0x10000)
    (h : m.wf = true) (hx : x < a ∨ a + bs.length ≤ x) : (m.store a bs).read x = m.read x := by
  rw [Memory.read_store hb h, if_neg (by omega)]

/-- The store law for one byte. -/
theorem Memory.read_store_one {a x : Nat} {b : Byte} {m : Memory} (ha : a < 0x10000) (h : m.wf = true) :
    (m.store a [b]).read x = if x = a then b else m.read x := by
  rw [Memory.read_store (by simpa using ha) h]
  by_cases hx : x = a
  · subst hx; simp
  · rw [if_neg hx, if_neg (by simp; omega)]

theorem Memory.extFrom {lo : Nat} {m n : Memory} (hm : Memory.wfFrom lo m = true)
    (hn : Memory.wfFrom lo n = true) (h : ∀ a, m.read a = n.read a) : m = n := by
  induction m generalizing lo n with
  | nil =>
    cases n with
    | nil => rfl
    | cons c n =>
      obtain ⟨x, v⟩ := c
      simp only [Memory.wfFrom_cons] at hn
      have := h x
      simp only [Memory.read_nil, Memory.read_cons, if_true] at this
      exact absurd this.symm hn.2.2.1
  | cons c m ih =>
    obtain ⟨x, v⟩ := c
    simp only [Memory.wfFrom_cons] at hm
    cases n with
    | nil =>
      have := h x
      simp only [Memory.read_nil, Memory.read_cons, if_true] at this
      exact absurd this hm.2.2.1
    | cons d n =>
      obtain ⟨y, w⟩ := d
      simp only [Memory.wfFrom_cons] at hn
      have hxy : x = y := by
        rcases Nat.lt_trichotomy x y with hlt | he | hgt
        · have := h x
          rw [Memory.read_cons, if_pos rfl, Memory.read_cons, if_neg (by omega),
            Memory.read_below_first hn.2.2.2 (by omega)] at this
          exact absurd this hm.2.2.1
        · exact he
        · have := h y
          rw [Memory.read_cons (x := y), if_pos rfl, Memory.read_cons, if_neg (by omega),
            Memory.read_below_first hm.2.2.2 (by omega)] at this
          exact absurd this.symm hn.2.2.1
      subst hxy
      have hv : v = w := by
        have := h x
        simpa [Memory.read_cons] using this
      subst hv
      have hmn : m = n := by
        refine ih hm.2.2.2 hn.2.2.2 fun a => ?_
        by_cases ha : x = a
        · subst ha
          rw [Memory.read_below_first hm.2.2.2 (by omega), Memory.read_below_first hn.2.2.2 (by omega)]
        · have := h a
          rwa [Memory.read_cons, if_neg ha, Memory.read_cons, if_neg ha] at this
      rw [hmn]

/-- Canonical memories that read alike are equal. -/
theorem Memory.ext_of_read {m n : Memory} (hm : m.wf = true) (hn : n.wf = true)
    (h : ∀ a, m.read a = n.read a) : m = n :=
  Memory.extFrom hm hn h

theorem Memory.wfFrom_below {lo e : Nat} {m : Memory} (h : Memory.wfFrom lo m = true) :
    Memory.wfFrom lo (m.below e) = true := by
  unfold Memory.below
  induction m generalizing lo with
  | nil => rfl
  | cons c m ih =>
    obtain ⟨x, v⟩ := c
    simp only [Memory.wfFrom_cons] at h
    rw [List.filter_cons]
    split
    · simp only [Memory.wfFrom_cons]; exact ⟨h.1, h.2.1, h.2.2.1, ih h.2.2.2⟩
    · exact Memory.wfFrom_mono (by omega) (ih h.2.2.2)

/-- A copy of the bytes below an address is canonical. -/
theorem Memory.wf_below {e : Nat} {m : Memory} (h : m.wf = true) : (m.below e).wf = true :=
  Memory.wfFrom_below h

/-- The copy reads as the memory below its end, and as unlisted from there on. -/
theorem Memory.read_below (e a : Nat) (m : Memory) :
    (m.below e).read a = if a < e then m.read a else Memory.unlisted a := by
  unfold Memory.below
  induction m with
  | nil => simp
  | cons c m ih =>
    obtain ⟨x, v⟩ := c
    rw [List.filter_cons, Memory.read_cons]
    split
    · next hx =>
      simp only [decide_eq_true_eq] at hx
      rw [Memory.read_cons, ih]
      by_cases hxa : x = a
      · subst hxa; simp [hx]
      · simp [hxa]
    · next hx =>
      simp only [decide_eq_true_eq] at hx
      rw [ih]
      by_cases hxa : x = a
      · subst hxa; simp [hx]
      · simp [hxa]

/-! ## MemRead and MemWrite -/

@[simp] theorem bytesBE_length (n v : Nat) : (bytesBE n v).length = n := by simp [bytesBE]

theorem wf_memWrite {m : Memory} {addr n v : Nat} (hb : addr + n ≤ 0x10000) (h : m.wf = true) :
    (memWrite m addr n v).wf = true :=
  Memory.wf_store (by simpa using hb) h

/-- What MemWrite writes and leaves alone (R10). -/
theorem read_memWrite {m : Memory} {addr n v x : Nat} (hb : addr + n ≤ 0x10000) (h : m.wf = true) :
    (memWrite m addr n v).read x =
      if addr ≤ x ∧ x < addr + n then BitVec.ofNat 8 (v >>> (8 * (n - 1 - (x - addr)))) else m.read x := by
  unfold memWrite
  rw [Memory.read_store (by simpa using hb) h, bytesBE_length]
  split
  · next hx =>
    have : x - addr < n := by omega
    simp [bytesBE, List.getD_eq_getElem?_getD, this]
  · rfl

/-- A two-byte field, high byte first (R60). -/
theorem memRead_two (m : Memory) (a : Nat) :
    memRead m a 2 = (m.read a).toNat * 256 + (m.read (a + 1)).toNat := by
  simp [memRead, List.range_succ]

/-- A three-byte field, high byte first (R60). -/
theorem memRead_three (m : Memory) (a : Nat) :
    memRead m a 3 = (m.read a).toNat * 65536 + (m.read (a + 1)).toNat * 256 + (m.read (a + 2)).toNat := by
  simp [memRead, List.range_succ]
  omega

end Sys2Proof.Machine
end

