-- ==== Sys2Proof/Laws/Pixels.lean ====
section
/-! SUPPORT. What Plot does, said once: it keeps the canonical form, changes the colour Peek reads at its own pixel and
at no other, and leaves every byte outside the two planes alone. -/

namespace Sys2Proof.Machine

/-! ## Bits inside a byte -/

/-- A slot written is the slot read back, and the other three slots of the byte are left alone. -/
theorem slot_setSlot (k j : Fin 4) (b : Byte) (i : BitVec 2) :
    (setSlot b (k.val * 2) i >>> (j.val * 2)).extractLsb' 0 2 =
      if j = k then i else (b >>> (j.val * 2)).extractLsb' 0 2 := by
  apply BitVec.eq_of_getLsbD_eq
  intro t ht
  have : t = 0 ∨ t = 1 := by omega
  fin_cases k <;> fin_cases j <;> rcases this with rfl | rfl <;> simp [setSlot]

/-- A bit written is the bit read back, and the other seven bits of the byte are left alone. -/
theorem bit_setBit (k j : Fin 8) (b : Byte) (i : BitVec 1) :
    (setBit b k.val i >>> j.val).extractLsb' 0 1 =
      if j = k then i else (b >>> j.val).extractLsb' 0 1 := by
  apply BitVec.eq_of_getLsbD_eq
  intro t ht
  obtain rfl : t = 0 := by omega
  fin_cases k <;> fin_cases j <;> simp [setBit]

/-- A byte is its four slots. -/
theorem byte_ext_slots {b c : Byte}
    (h : ∀ j : Fin 4, (b >>> (j.val * 2)).extractLsb' 0 2 = (c >>> (j.val * 2)).extractLsb' 0 2) : b = c := by
  have h0 := h 0; have h1 := h 1; have h2 := h 2; have h3 := h 3
  apply BitVec.eq_of_toNat_eq
  have e0 := congrArg BitVec.toNat h0; have e1 := congrArg BitVec.toNat h1
  have e2 := congrArg BitVec.toNat h2; have e3 := congrArg BitVec.toNat h3
  simp [BitVec.extractLsb'_toNat, Nat.shiftRight_eq_div_pow] at e0 e1 e2 e3
  omega

/-- A byte is its eight bits. -/
theorem byte_ext_bits {b c : Byte}
    (h : ∀ j : Fin 8, (b >>> j.val).extractLsb' 0 1 = (c >>> j.val).extractLsb' 0 1) : b = c := by
  have h0 := h 0; have h1 := h 1; have h2 := h 2; have h3 := h 3
  have h4 := h 4; have h5 := h 5; have h6 := h 6; have h7 := h 7
  apply BitVec.eq_of_toNat_eq
  have e0 := congrArg BitVec.toNat h0; have e1 := congrArg BitVec.toNat h1
  have e2 := congrArg BitVec.toNat h2; have e3 := congrArg BitVec.toNat h3
  have e4 := congrArg BitVec.toNat h4; have e5 := congrArg BitVec.toNat h5
  have e6 := congrArg BitVec.toNat h6; have e7 := congrArg BitVec.toNat h7
  simp [BitVec.extractLsb'_toNat, Nat.shiftRight_eq_div_pow] at e0 e1 e2 e3 e4 e5 e6 e7
  omega

/-- The colour Peek makes of an index and a bank is the three colour bits (R91, R122). -/
theorem peek_of_colour (col : Byte) :
    (colourIndex col).setWidth 8 ||| ((colourBank col).setWidth 8 <<< 2) = (colourBits col).setWidth 8 := by
  revert col; decide +kernel

/-- A colour byte made of an index and a bank gives both back (R90). -/
theorem colour_ext {i i' : BitVec 2} {b b' : BitVec 1}
    (h : i.setWidth 8 ||| (b.setWidth 8 <<< 2) = i'.setWidth 8 ||| (b'.setWidth 8 <<< 2)) : i = i' ∧ b = b' := by
  revert i i' b b' h; decide +kernel

/-! ## Addresses -/

@[simp] theorem palBaseAddr_ge (pb : Config.PalBase) : 0x2400 ≤ palBaseAddr pb := by cases pb <;> decide

@[simp] theorem palBaseAddr_le (pb : Config.PalBase) : palBaseAddr pb ≤ 0x2401 := by cases pb <;> decide

/-- The bounds test is membership in 0..191 in each axis (R120). -/
theorem inCanvas_iff {rx ry : Int} : inCanvas rx ry = true ↔ 0 ≤ rx ∧ rx ≤ 191 ∧ 0 ≤ ry ∧ ry ≤ 191 := by
  simp [inCanvas]

/-- A canvas pixel as two natural coordinates. -/
theorem inCanvas_toNat {rx ry : Int} (h : inCanvas rx ry = true) : rx.toNat < 192 ∧ ry.toNat < 192 := by
  rw [inCanvas_iff] at h; omega

/-- ca stays inside the colour-index plane (R67). -/
theorem colourAddr_lt {x y : Nat} (hx : x < 192) (hy : y < 192) : colourAddr x y < 0x2400 := by
  unfold colourAddr; omega

/-- pa stays inside the palette-select plane (R67). -/
theorem bankAddr_bounds (pb : Config.PalBase) {x y : Nat} (hx : x < 192) (hy : y < 192) :
    palBaseAddr pb ≤ bankAddr pb x y ∧ bankAddr pb x y < palBaseAddr pb + 0x1200 := by
  unfold bankAddr; omega

/-! ## Plot -/

/-- Plot on the canvas, on the bytes of M: the two read-modify-writes of R120. -/
theorem read_plot_on {pb : Config.PalBase} {rx ry : Int} {col : Byte} {m : Memory} (hm : m.wf = true)
    (h : inCanvas rx ry = true) (a : Nat) :
    (plot pb rx ry col m).read a =
      if a = colourAddr rx.toNat ry.toNat then setSlot (m.read a) (colourShift rx.toNat) (colourIndex col)
      else if a = bankAddr pb rx.toNat ry.toNat then setBit (m.read a) (bankShift rx.toNat) (colourBank col)
      else m.read a := by
  obtain ⟨hx, hy⟩ := inCanvas_toNat h
  have hc := colourAddr_lt hx hy
  have hb := bankAddr_bounds pb hx hy
  have h1 := palBaseAddr_ge pb
  have h2 := palBaseAddr_le pb
  have hi : (plotIndex rx.toNat ry.toNat col m).wf = true := Memory.wf_store (by simp; omega) hm
  have hr : ∀ a, (plotIndex rx.toNat ry.toNat col m).read a =
      if a = colourAddr rx.toNat ry.toNat then
        setSlot (m.read (colourAddr rx.toNat ry.toNat)) (colourShift rx.toNat) (colourIndex col)
      else m.read a := fun a => Memory.read_store_one (by omega) hm
  rw [plot, if_pos h, plotBank, Memory.read_store_one (by omega) hi, hr, hr]
  by_cases ha : a = colourAddr rx.toNat ry.toNat
  · rw [if_neg (by omega), if_pos ha, if_pos ha, ha]
  · rw [if_neg ha, if_neg ha]
    by_cases hb' : a = bankAddr pb rx.toNat ry.toNat
    · rw [if_pos hb', if_pos hb', if_neg (by omega), hb']
    · rw [if_neg hb', if_neg hb']

/-- Plot off the canvas does nothing (R120). -/
theorem plot_off {pb : Config.PalBase} {rx ry : Int} {col : Byte} {m : Memory} (h : inCanvas rx ry = false) :
    plot pb rx ry col m = m := by
  simp [plot, h]

/-- Plot keeps the canonical form. -/
theorem wf_plot {pb : Config.PalBase} {rx ry : Int} {col : Byte} {m : Memory} (hm : m.wf = true) :
    (plot pb rx ry col m).wf = true := by
  unfold plot
  split
  · next h =>
    obtain ⟨hx, hy⟩ := inCanvas_toNat h
    have hc := colourAddr_lt hx hy
    have hb := bankAddr_bounds pb hx hy
    have h2 := palBaseAddr_le pb
    exact Memory.wf_store (by simp; omega) (Memory.wf_store (by simp; omega) hm)
  · exact hm

/-- Is an address outside both planes? -/
abbrev OutsidePlanes (pb : Config.PalBase) (a : Nat) : Prop :=
  0x2400 ≤ a ∧ (a < palBaseAddr pb ∨ palBaseAddr pb + 0x1200 ≤ a)

/-- Plot leaves every byte outside the planes alone (R68). -/
theorem read_plot_outside {pb : Config.PalBase} {rx ry : Int} {col : Byte} {m : Memory} (hm : m.wf = true)
    {a : Nat} (ha : OutsidePlanes pb a) : (plot pb rx ry col m).read a = m.read a := by
  by_cases h : inCanvas rx ry = true
  · obtain ⟨hx, hy⟩ := inCanvas_toNat h
    have hc := colourAddr_lt hx hy
    have hb := bankAddr_bounds pb hx hy
    rw [read_plot_on hm h, if_neg (by omega), if_neg (by omega)]
  · rw [plot_off (by simpa using h)]

/-- The index Plot leaves at a canvas pixel (R124, R125). -/
theorem peekIndex_plot {pb : Config.PalBase} {rx ry : Int} {col : Byte} {m : Memory} (hm : m.wf = true)
    {x y : Nat} (hx : x < 192) (hy : y < 192) :
    peekIndex x y (plot pb rx ry col m) = if rx = x ∧ ry = y then colourIndex col else peekIndex x y m := by
  by_cases h : inCanvas rx ry = true
  · have hr := inCanvas_iff.1 h
    obtain ⟨hX, hY⟩ := inCanvas_toNat h
    have hc := colourAddr_lt hx hy
    have hb := bankAddr_bounds pb hX hY
    have h1 := palBaseAddr_ge pb
    unfold peekIndex
    rw [read_plot_on hm h]
    by_cases ha : colourAddr x y = colourAddr rx.toNat ry.toNat
    · rw [if_pos ha]
      have hq : x / 4 = rx.toNat / 4 ∧ y = ry.toNat := by unfold colourAddr at ha; omega
      have := slot_setSlot ⟨rx.toNat % 4, by omega⟩ ⟨x % 4, by omega⟩ (m.read (colourAddr x y)) (colourIndex col)
      simp only [Fin.mk.injEq] at this
      unfold colourShift
      rw [this]
      by_cases he : rx = x ∧ ry = y
      · rw [if_pos he, if_pos (by omega)]
      · rw [if_neg he, if_neg (by omega)]
    · rw [if_neg ha, if_neg (by omega), if_neg]
      rintro ⟨rfl, rfl⟩
      exact ha rfl
  · rw [plot_off (by simpa using h), if_neg]
    rintro ⟨rfl, rfl⟩
    exact h (inCanvas_iff.2 (by omega))

/-- The bank Plot leaves at a canvas pixel (R124, R125). -/
theorem peekBank_plot {pb : Config.PalBase} {rx ry : Int} {col : Byte} {m : Memory} (hm : m.wf = true)
    {x y : Nat} (hx : x < 192) (hy : y < 192) :
    peekBank pb x y (plot pb rx ry col m) = if rx = x ∧ ry = y then colourBank col else peekBank pb x y m := by
  by_cases h : inCanvas rx ry = true
  · have hr := inCanvas_iff.1 h
    obtain ⟨hX, hY⟩ := inCanvas_toNat h
    have hc := colourAddr_lt hX hY
    have hb := bankAddr_bounds pb hx hy
    have h1 := palBaseAddr_ge pb
    unfold peekBank
    rw [read_plot_on hm h, if_neg (by omega)]
    by_cases ha : bankAddr pb x y = bankAddr pb rx.toNat ry.toNat
    · rw [if_pos ha]
      have hq : x / 8 = rx.toNat / 8 ∧ y = ry.toNat := by unfold bankAddr at ha; omega
      have := bit_setBit ⟨rx.toNat % 8, by omega⟩ ⟨x % 8, by omega⟩ (m.read (bankAddr pb x y)) (colourBank col)
      simp only [Fin.mk.injEq] at this
      unfold bankShift
      rw [this]
      by_cases he : rx = x ∧ ry = y
      · rw [if_pos he, if_pos (by omega)]
      · rw [if_neg he, if_neg (by omega)]
    · rw [if_neg ha, if_neg]
      rintro ⟨rfl, rfl⟩
      exact ha rfl
  · rw [plot_off (by simpa using h), if_neg]
    rintro ⟨rfl, rfl⟩
    exact h (inCanvas_iff.2 (by omega))

/-- The colour Plot leaves at a canvas pixel: its own at its own pixel, the old one everywhere else (R124, R125). -/
theorem peek_plot {pb : Config.PalBase} {rx ry : Int} {col : Byte} {m : Memory} (hm : m.wf = true)
    {x y : Nat} (hx : x < 192) (hy : y < 192) :
    peek pb x y (plot pb rx ry col m) = if rx = x ∧ ry = y then (colourBits col).setWidth 8 else peek pb x y m := by
  unfold peek
  rw [peekIndex_plot hm hx hy, peekBank_plot hm hx hy]
  split
  · exact peek_of_colour col
  · rfl

/-! ## Plotting a list of pixels -/

@[simp] theorem plotAll_nil (pb : Config.PalBase) (col : Byte) (m : Memory) : plotAll pb col [] m = m := rfl

@[simp] theorem plotAll_cons (pb : Config.PalBase) (col : Byte) (p : Int × Int) (ps : List (Int × Int)) (m : Memory) :
    plotAll pb col (p :: ps) m = plotAll pb col ps (plot pb p.1 p.2 col m) := rfl

theorem wf_plotAll {pb : Config.PalBase} {col : Byte} {ps : List (Int × Int)} {m : Memory} (hm : m.wf = true) :
    (plotAll pb col ps m).wf = true := by
  induction ps generalizing m with
  | nil => exact hm
  | cons p ps ih => exact ih (wf_plot hm)

theorem read_plotAll_outside {pb : Config.PalBase} {col : Byte} {ps : List (Int × Int)} {m : Memory}
    (hm : m.wf = true) {a : Nat} (ha : OutsidePlanes pb a) : (plotAll pb col ps m).read a = m.read a := by
  induction ps generalizing m with
  | nil => rfl
  | cons p ps ih => rw [plotAll_cons, ih (wf_plot hm), read_plot_outside hm ha]

/-- The picture after plotting a list: the pixels of the list in the new colour, every other one as it was (R181). -/
theorem peek_plotAll {pb : Config.PalBase} {col : Byte} {ps : List (Int × Int)} {m : Memory} (hm : m.wf = true)
    {x y : Nat} (hx : x < 192) (hy : y < 192) :
    peek pb x y (plotAll pb col ps m) =
      if ((x : Int), (y : Int)) ∈ ps then (colourBits col).setWidth 8 else peek pb x y m := by
  induction ps generalizing m with
  | nil => simp
  | cons p ps ih =>
    rw [plotAll_cons, ih (wf_plot hm), peek_plot hm hx hy]
    by_cases hp : ((x : Int), (y : Int)) ∈ ps
    · rw [if_pos hp, if_pos (List.mem_cons_of_mem _ hp)]
    · rw [if_neg hp]
      by_cases he : p.1 = (x : Int) ∧ p.2 = (y : Int)
      · rw [if_pos he, if_pos (by rw [List.mem_cons]; exact .inl (Prod.ext he.1.symm he.2.symm))]
      · rw [if_neg he, if_neg]
        rw [List.mem_cons]
        rintro (h | h)
        · exact he ⟨(congrArg Prod.fst h).symm, (congrArg Prod.snd h).symm⟩
        · exact hp h

/-- Pixels off the canvas may be left out of a list (R120). -/
theorem plotAll_filter (pb : Config.PalBase) (col : Byte) (ps : List (Int × Int)) (m : Memory) :
    plotAll pb col (ps.filter fun p => inCanvas p.1 p.2) m = plotAll pb col ps m := by
  induction ps generalizing m with
  | nil => rfl
  | cons p ps ih =>
    rw [List.filter_cons]
    split
    · exact ih _
    · next h => rw [plotAll_cons, plot_off (by simpa using h)]; exact ih m

/-- Two canonical memories with the same picture and the same bytes outside the planes are equal. -/
theorem Memory.ext_of_picture {pb : Config.PalBase} {m n : Memory} (hm : m.wf = true) (hn : n.wf = true)
    (hp : ∀ x y, x < 192 → y < 192 → peek pb x y m = peek pb x y n)
    (ho : ∀ a, OutsidePlanes pb a → m.read a = n.read a) : m = n := by
  have hc : ∀ x y, x < 192 → y < 192 → peekIndex x y m = peekIndex x y n ∧ peekBank pb x y m = peekBank pb x y n :=
    fun x y hx hy => colour_ext (hp x y hx hy)
  refine Memory.ext_of_read hm hn fun a => ?_
  by_cases h1 : a < 0x2400
  · refine byte_ext_slots fun j => ?_
    have := (hc (4 * (a % 48) + j.val) (a / 48) (by omega) (by omega)).1
    unfold peekIndex colourShift at this
    rwa [show colourAddr (4 * (a % 48) + j.val) (a / 48) = a by unfold colourAddr; omega,
      show (4 * (a % 48) + j.val) % 4 = j.val by omega] at this
  · by_cases h2 : palBaseAddr pb ≤ a ∧ a < palBaseAddr pb + 0x1200
    · refine byte_ext_bits fun j => ?_
      have := (hc (8 * ((a - palBaseAddr pb) % 24) + j.val) ((a - palBaseAddr pb) / 24) (by omega) (by omega)).2
      unfold peekBank bankShift at this
      rwa [show bankAddr pb (8 * ((a - palBaseAddr pb) % 24) + j.val) ((a - palBaseAddr pb) / 24) = a by
          unfold bankAddr; omega,
        show (8 * ((a - palBaseAddr pb) % 24) + j.val) % 8 = j.val by omega] at this
    · exact ho a ⟨by omega, by omega⟩

end Sys2Proof.Machine
end

