-- ==== Sys2Proof/Laws/State.lean ====
section
/-! SUPPORT. One lemma per field per update of the state, true by rfl. -/

namespace Sys2Proof.Machine

@[simp] theorem setMem_palBase (s : State) (m : Memory) : (s.setMem m).palBase = s.palBase := rfl
@[simp] theorem setMem_mem (s : State) (m : Memory) : (s.setMem m).mem = m := rfl
@[simp] theorem setMem_constructed (s : State) (m : Memory) : (s.setMem m).constructed = s.constructed := rfl
@[simp] theorem setMem_port (s : State) (m : Memory) : (s.setMem m).port = s.port := rfl
@[simp] theorem setMem_phase (s : State) (m : Memory) : (s.setMem m).phase = s.phase := rfl
@[simp] theorem setMem_moves (s : State) (m : Memory) : (s.setMem m).moves = s.moves := rfl
@[simp] theorem setMem_responses (s : State) (m : Memory) : (s.setMem m).responses = s.responses := rfl
@[simp] theorem setMem_published (s : State) (m : Memory) : (s.setMem m).published = s.published := rfl

@[simp] theorem respond_palBase (st : Status) (d : BitVec 24) (s : State) :
    (respond st d s).palBase = s.palBase := rfl
@[simp] theorem respond_mem (st : Status) (d : BitVec 24) (s : State) : (respond st d s).mem = s.mem := rfl
@[simp] theorem respond_constructed (st : Status) (d : BitVec 24) (s : State) :
    (respond st d s).constructed = s.constructed := rfl
@[simp] theorem respond_port (st : Status) (d : BitVec 24) (s : State) : (respond st d s).port = s.port := rfl
@[simp] theorem respond_phase (st : Status) (d : BitVec 24) (s : State) : (respond st d s).phase = s.phase := rfl
@[simp] theorem respond_moves (st : Status) (d : BitVec 24) (s : State) : (respond st d s).moves = s.moves := rfl
@[simp] theorem respond_responses (st : Status) (d : BitVec 24) (s : State) :
    (respond st d s).responses = s.responses ++ [⟨st, d⟩] := rfl
@[simp] theorem respond_published (st : Status) (d : BitVec 24) (s : State) :
    (respond st d s).published = s.published := rfl

@[simp] theorem reject_palBase (st : Status) (s : State) : (reject st s).palBase = s.palBase := rfl
@[simp] theorem reject_mem (st : Status) (s : State) : (reject st s).mem = s.mem := rfl
@[simp] theorem reject_constructed (st : Status) (s : State) : (reject st s).constructed = s.constructed := rfl
@[simp] theorem reject_port (st : Status) (s : State) : (reject st s).port = s.port := rfl
@[simp] theorem reject_phase (st : Status) (s : State) : (reject st s).phase = s.phase := rfl
@[simp] theorem reject_moves (st : Status) (s : State) : (reject st s).moves = s.moves := rfl
@[simp] theorem reject_responses (st : Status) (s : State) :
    (reject st s).responses = s.responses ++ [⟨st, 0⟩] := rfl
@[simp] theorem reject_published (st : Status) (s : State) : (reject st s).published = s.published := rfl

@[simp] theorem construct_mem (s : State) : (construct s).mem = [] := rfl
@[simp] theorem construct_palBase (s : State) : (construct s).palBase = s.palBase := rfl
@[simp] theorem construct_constructed (s : State) : (construct s).constructed = true := rfl
@[simp] theorem construct_port (s : State) : (construct s).port = [] := rfl
@[simp] theorem construct_phase (s : State) : (construct s).phase = .betweenTicks := rfl
@[simp] theorem construct_moves (s : State) : (construct s).moves = s.moves := rfl
@[simp] theorem construct_responses (s : State) : (construct s).responses = s.responses := rfl
@[simp] theorem construct_published (s : State) : (construct s).published = s.published := rfl
@[simp] theorem destroy_mem (s : State) : (destroy s).mem = [] := rfl
@[simp] theorem destroy_palBase (s : State) : (destroy s).palBase = s.palBase := rfl
@[simp] theorem destroy_constructed (s : State) : (destroy s).constructed = false := rfl
@[simp] theorem destroy_port (s : State) : (destroy s).port = [] := rfl
@[simp] theorem destroy_phase (s : State) : (destroy s).phase = .betweenTicks := rfl
@[simp] theorem destroy_moves (s : State) : (destroy s).moves = s.moves := rfl
@[simp] theorem destroy_responses (s : State) : (destroy s).responses = s.responses := rfl
@[simp] theorem destroy_published (s : State) : (destroy s).published = s.published := rfl
@[simp] theorem publish_mem (s : State) : (publish s).mem = s.mem := rfl
@[simp] theorem publish_palBase (s : State) : (publish s).palBase = s.palBase := rfl
@[simp] theorem publish_constructed (s : State) : (publish s).constructed = s.constructed := rfl
@[simp] theorem publish_port (s : State) : (publish s).port = s.port := rfl
@[simp] theorem publish_phase (s : State) : (publish s).phase = .betweenTicks := rfl
@[simp] theorem publish_moves (s : State) : (publish s).moves = s.moves := rfl
@[simp] theorem publish_responses (s : State) : (publish s).responses = s.responses := rfl
@[simp] theorem publish_published (s : State) : (publish s).published = s.published ++ [frameOf s] := rfl
@[simp] theorem sampleInput_palBase (i : Vector Byte 58) (s : State) : (sampleInput i s).palBase = s.palBase := rfl
@[simp] theorem sampleInput_constructed (i : Vector Byte 58) (s : State) :
    (sampleInput i s).constructed = s.constructed := rfl
@[simp] theorem sampleInput_port (i : Vector Byte 58) (s : State) : (sampleInput i s).port = s.port := rfl
@[simp] theorem sampleInput_phase (i : Vector Byte 58) (s : State) : (sampleInput i s).phase = .sampled := rfl
@[simp] theorem sampleInput_moves (i : Vector Byte 58) (s : State) : (sampleInput i s).moves = s.moves := rfl
@[simp] theorem sampleInput_responses (i : Vector Byte 58) (s : State) :
    (sampleInput i s).responses = s.responses := rfl
@[simp] theorem sampleInput_published (i : Vector Byte 58) (s : State) :
    (sampleInput i s).published = s.published := rfl
@[simp] theorem sampleInput_mem (i : Vector Byte 58) (s : State) :
    (sampleInput i s).mem = s.mem.store addrInput i.toList := rfl

end Sys2Proof.Machine
end

