-- ==== Sys2Proof/Laws/Exec.lean ====
section
/-! SUPPORT. What a command and a step can do, said once. -/

namespace Sys2Proof.Machine

/-- A field read as sext_16 is its two's complement value (R10, R94). -/
theorem sext16_eq_toInt (f : Field) : sext16 f = f.toInt := by
  unfold sext16
  rw [BitVec.toInt_eq_toNat_cond]
  split <;> split <;> first | rfl | omega

/-- A store inside M, once more, as a fact about any memory a command may leave: canonical if the old one was. -/
theorem wf_clearTo {pb : Config.PalBase} {i : BitVec 2} {b : BitVec 1} {m : Memory} (hm : m.wf = true) :
    (clearTo pb i b m).wf = true := by
  have := palBaseAddr_le pb
  refine Memory.wf_store ?_ (Memory.wf_store ?_ hm) <;>
    simp only [List.length_replicate, palettePlaneSize, colourPlaneSize] <;> omega

/-- What clearScreen leaves at an address (R189). -/
theorem read_clearTo {pb : Config.PalBase} {i : BitVec 2} {b : BitVec 1} {m : Memory} (hm : m.wf = true) (a : Nat) :
    (clearTo pb i b m).read a =
      if palBaseAddr pb ≤ a ∧ a < palBaseAddr pb + 0x1200 then (if b = 1 then 0xFF else 0x00)
      else if a < 0x2400 then fillByte i else m.read a := by
  have h2 := palBaseAddr_le pb
  have h1 := palBaseAddr_ge pb
  have hb : 0 + (List.replicate colourPlaneSize (fillByte i)).length ≤ 0x10000 := by
    simp only [List.length_replicate, colourPlaneSize]; omega
  unfold clearTo
  rw [Memory.read_store (by simp only [List.length_replicate, palettePlaneSize]; omega) (Memory.wf_store hb hm),
    Memory.read_store hb hm]
  simp only [List.length_replicate, colourPlaneSize, palettePlaneSize, Nat.zero_le, true_and, Nat.zero_add]
  by_cases hp : palBaseAddr pb ≤ a ∧ a < palBaseAddr pb + 0x1200
  · rw [if_pos hp, if_pos hp, List.getD_eq_getElem?_getD, List.getElem?_replicate, if_pos (by omega)]
    rfl
  · rw [if_neg hp, if_neg hp]
    by_cases hc : a < 0x2400
    · rw [if_pos hc, if_pos hc, List.getD_eq_getElem?_getD, List.getElem?_replicate, if_pos (by omega)]
      rfl
    · rw [if_neg hc, if_neg hc]

/-- Every command answers a next state: one response more, a canonical memory if it had one, everything else as it
was; it reports nothing but OK, BAD_LENGTH and OUT_OF_RANGE, and a rejection carries no data and leaves M (R250). -/
theorem exec_shape (i : Instr) (s : State) :
    ∃ st data m, exec i s = .next (respond st data (s.setMem m)) ∧ (s.mem.wf = true → m.wf = true) ∧
      (st ≠ .ok → data = 0 ∧ m = s.mem) := by
  cases i with
  | setPixel x y col => exact ⟨.ok, 0, _, rfl, fun h => wf_plot h, by simp⟩
  | getPixel x y =>
    by_cases h : inCanvas (sext16 x) (sext16 y) = true
    · exact ⟨.ok, _, s.mem, if_pos h, id, by simp⟩
    · exact ⟨.outOfRange, 0, s.mem, if_neg h, id, by simp⟩
  | setPaletteA v => exact ⟨.ok, 0, _, rfl, fun h => Memory.wf_store (by simp [addrPal]) h, by simp⟩
  | setPaletteB v => exact ⟨.ok, 0, _, rfl, fun h => Memory.wf_store (by simp [addrPal]) h, by simp⟩
  | getPalettes => exact ⟨.ok, _, s.mem, rfl, id, by simp⟩
  | setBackground col => exact ⟨.ok, 0, _, rfl, fun h => Memory.wf_store (by simp [addrBg]) h, by simp⟩
  | setCamera x y =>
    exact ⟨.ok, 0, _, rfl, fun h => wf_memWrite (by decide) (wf_memWrite (by decide) h), by simp⟩
  | setClip x y w h => exact ⟨.ok, 0, _, rfl, fun h => Memory.wf_store (by simp [addrClip]) h, by simp⟩
  | resetClip => exact ⟨.ok, 0, _, rfl, fun h => Memory.wf_store (by simp [addrClip]) h, by simp⟩
  | drawRectBorder x y w h col => exact ⟨.ok, 0, _, rfl, fun h => wf_plotAll h, by simp⟩
  | fillRect x y w h col => exact ⟨.ok, 0, _, rfl, fun h => wf_plotAll h, by simp⟩
  | drawLine x1 y1 x2 y2 col => exact ⟨.ok, 0, _, rfl, fun h => wf_plotAll h, by simp⟩
  | clearScreen => exact ⟨.ok, 0, _, rfl, fun h => wf_clearTo h, by simp⟩
  | advance => exact ⟨.ok, 0, _, rfl, fun h => wf_memWrite (by decide) h, by simp⟩
  | frames => exact ⟨.ok, _, s.mem, rfl, id, by simp⟩
  | loadSpriteSheet len payload =>
    by_cases h : len.toNat ≠ spriteSheetSize
    · exact ⟨.badLength, 0, s.mem, if_pos h, id, by simp⟩
    · refine ⟨.ok, 0, _, if_neg h, fun hm => Memory.wf_store ?_ hm, by simp⟩
      simp only [List.length_take, addrUserSprites, spriteSheetSize]
      omega

/-- A step is one of: a command executed, an illegal word rejected, the host's turn. -/
theorem step_cases (s : State) :
    (∃ i rest, fetch s = .instr i rest ∧ step s = exec i { s with port := rest }) ∨
    (∃ op rest, fetch s = .illegal op rest ∧ step s = .next (reject .illegalCommand { s with port := rest })) ∨
    (fetch s = .incomplete ∧ step s = hostTurn s) := by
  unfold step
  cases h : fetch s with
  | instr i rest => exact .inl ⟨i, rest, rfl, rfl⟩
  | illegal op rest => exact .inr (.inl ⟨op, rest, rfl, rfl⟩)
  | incomplete => exact .inr (.inr ⟨rfl, rfl⟩)

/-- What the host's turn can do when it answers a next state. -/
theorem hostTurn_cases {s t : State} (h : hostTurn s = .next t) :
    (s.moves = [] ∧ t = s) ∨
    (∃ m later, s.moves = m :: later ∧ brokenDuty m s = none ∧ t = hostAct m { s with moves := later }) := by
  unfold hostTurn at h
  split at h
  · next hm => cases h; exact .inl ⟨hm, rfl⟩
  · next m later hm =>
    split at h
    · cases h
    · next hb => cases h; exact .inr ⟨m, later, hm, hb, rfl⟩

theorem notBetweenCommands_eq_none {s : State} : notBetweenCommands s = none ↔ s.constructed = true ∧ s.port = [] := by
  unfold notBetweenCommands
  cases s.constructed <;> cases s.port <;> simp

/-- When an act breaks no duty (R238). -/
theorem brokenDuty_eq_none {m : HostMove} {s : State} :
    brokenDuty m s = none ↔
      match m with
      | .issue bytes => s.constructed = true ∧ s.port = [] ∧ isOneCommand bytes = true ∧ s.phase ≠ .sampled
      | .startTick => s.constructed = true ∧ s.port = [] ∧ s.phase = .betweenTicks
      | .sampleInput _ => s.constructed = true ∧ s.port = [] ∧ s.phase = .callbacks
      | .publish => s.constructed = true ∧ s.port = [] ∧ s.phase = .sampled
      | .construct => True
      | .destroy => s.constructed = true := by
  cases m <;> simp [brokenDuty, Option.or_eq_none_iff, notBetweenCommands_eq_none, and_assoc]
  split <;> simp [*]

end Sys2Proof.Machine
end

