-- ==== Sys2Proof/Laws/PerInstr.lean ====
section
/-! SUPPORT. Statements made once per command. -/

namespace Sys2Proof.Laws.EncodedShape

/-- A command travels as ten bytes, its operation code first, and then its payload (R92, R93, R103). -/
def Statement (i : Instr) : Prop :=
  (encode i).length = 10 + (payloadOf i).length ∧ (encode i).head? = some (opcode i)

theorem of_word {i : Instr} (h : fieldOp (encodeWord i) = opcode i) : Statement i :=
  ⟨by simp [encode], by rw [← h]; rfl⟩

theorem setPixel (x y : Field) (col : Byte) : Statement (.setPixel x y col) := of_word (by simp [encodeWord])
theorem getPixel (x y : Field) : Statement (.getPixel x y) := of_word (by simp [encodeWord])
theorem setPaletteA (value : Field) : Statement (.setPaletteA value) := of_word (by simp [encodeWord])
theorem setPaletteB (value : Field) : Statement (.setPaletteB value) := of_word (by simp [encodeWord])
theorem getPalettes : Statement .getPalettes := of_word (by simp [encodeWord])
theorem setBackground (col : Byte) : Statement (.setBackground col) := of_word (by simp [encodeWord])
theorem setCamera (x y : Field) : Statement (.setCamera x y) := of_word (by simp [encodeWord])
theorem setClip (x y w h : Field) : Statement (.setClip x y w h) := of_word (by simp [encodeWord])
theorem resetClip : Statement .resetClip := of_word (by simp [encodeWord])
theorem drawRectBorder (x y w h : Field) (col : Byte) : Statement (.drawRectBorder x y w h col) :=
  of_word (by simp [encodeWord])
theorem fillRect (x y w h : Field) (col : Byte) : Statement (.fillRect x y w h col) := of_word (by simp [encodeWord])
theorem drawLine (x1 y1 x2 y2 : Field) (col : Byte) : Statement (.drawLine x1 y1 x2 y2 col) :=
  of_word (by simp [encodeWord])
theorem clearScreen : Statement .clearScreen := of_word (by simp [encodeWord])
theorem advance : Statement .advance := of_word (by simp [encodeWord])
theorem frames : Statement .frames := of_word (by simp [encodeWord])
theorem loadSpriteSheet (len : BitVec 32) (payload : List Byte) : Statement (.loadSpriteSheet len payload) :=
  of_word (by simp [encodeWord])

end Sys2Proof.Laws.EncodedShape
end

