-- ==== Sys2Proof/Tests/Slice0.lean ====
section
/-! SUPPORT. Tests and witnesses. Words, responses and bytes are those of spec/95_test_vectors.md (sections 1 to 3) unless
a comment names another file; none is the model's own answer. -/

open Sys2Proof Sys2Proof.Machine Sys2Proof.Claims

namespace Sys2Proof.Tests

/-! ## Helpers -/

/-- The reset state with another memory. -/
def withMem (m : Memory) : State := State.reset.setMem m

/-- The memory and the last response word (R97) after one step that must be a next state. -/
def after (s : State) : Option (Memory × Option Nat) :=
  match step s with
  | .next t => some (t.mem, t.responses.getLast?.map fun r => r.word.toNat)
  | .fault _ => none
  | .refused _ => none

/-- The same for one table word on a memory. -/
def run1 (m : Memory) (w : Nat) : Option (Memory × Option Nat) := after ((withMem m).withFetchWord 80 w)

/-- A state in the middle of a run: pixel (5, 3) of colour 6, PAL, BG, camera (10, 20), FRAMES and CLIPX set, something on
the port. -/
def busy : State :=
  { State.reset with
    mem := [(0x0091, 0x08), (0x2449, 0x20), (0x3601, 0x93), (0x3602, 0xA0), (0x3604, 0x0A), (0x3606, 0x14),
      (0x3609, 0x01), (0x360A, 0x08)]
    port := [0x50, 0x00] }

/-- An input sample with the bytes of program P4. -/
def padSample : Vector Byte 58 :=
  Vector.ofFn fun k : Fin 58 =>
    if k.val = 0 then 0x64 else if k.val = 1 then 0x32 else if k.val = 2 then 0x01 else if k.val = 3 then 0x80
    else if k.val = 57 then 0xFF else 0x00

/-! ## WellFormed smoke test (R103: exactly LEN payload bytes follow) -/

theorem test_wf_refuses_short_payload : Instr.wf (.loadSpriteSheet 4 [0xAA, 0xBB, 0xCC]) = false := by decide
theorem test_wf_refuses_long_payload : Instr.wf (.loadSpriteSheet 4 [1, 2, 3, 4, 5]) = false := by decide
theorem test_wf_accepts_exact_payload : Instr.wf (.loadSpriteSheet 4 [0xAA, 0xBB, 0xCC, 0xDD]) = true := by decide

/-! ## Decoding: one word per constructor (section 2.1 and the tables of sections 2.2 to 2.6) -/

theorem test_decode_setPixel : decodeTableWord 80 0x10000500030000000086 = some (.setPixel 5 3 0x86) := by decide
theorem test_decode_getPixel : decodeTableWord 80 0x110000FFFF0000000000 = some (.getPixel 0 0xFFFF) := by decide
theorem test_decode_setPaletteA : decodeTableWord 80 0x20000900000000000000 = some (.setPaletteA 9) := by decide
theorem test_decode_setPaletteB : decodeTableWord 80 0x21000300000000000000 = some (.setPaletteB 3) := by decide
theorem test_decode_getPalettes : decodeTableWord 80 0x22FFFFFFFFFFFFFFFFFF = some .getPalettes := by decide
theorem test_decode_setBackground : decodeTableWord 80 0x230000000000000000FF = some (.setBackground 0xFF) := by decide
theorem test_decode_setCamera : decodeTableWord 80 0x301234ABCD0000000000 = some (.setCamera 0x1234 0xABCD) := by decide
theorem test_decode_setClip : decodeTableWord 80 0x310008001001C0003200 = some (.setClip 8 16 0x1C0 50) := by decide
theorem test_decode_resetClip : decodeTableWord 80 0x32000000000000000000 = some .resetClip := by decide
theorem test_decode_drawRectBorder :
    decodeTableWord 80 0x40000100010004000303 = some (.drawRectBorder 1 1 4 3 0x03) := by decide
theorem test_decode_fillRect :
    decodeTableWord 80 0x41001400140005800003 = some (.fillRect 20 20 5 0x8000 0x03) := by decide
theorem test_decode_drawLine :
    decodeTableWord 80 0x42FFFEFFFF0003000405 = some (.drawLine 0xFFFE 0xFFFF 3 4 0x05) := by decide
theorem test_decode_clearScreen : decodeTableWord 80 0x43123456789ABCDEF0FF = some .clearScreen := by decide
theorem test_decode_advance : decodeTableWord 80 0x50000000000000000000 = some .advance := by decide
theorem test_decode_frames : decodeTableWord 80 0x51000000000000000000 = some .frames := by decide
theorem test_decode_loadSpriteSheet :
    decode [0x60, 0, 0, 0, 0, 0, 0, 0, 0x04, 0, 0xAA, 0xBB, 0xCC, 0xDD, 0x50] =
      .instr (.loadSpriteSheet 4 [0xAA, 0xBB, 0xCC, 0xDD]) [0x50] := by decide
theorem test_decode_load_length_is_c_then_d : fieldLen 0x60000000000001300000 = 77824 := by decide
theorem test_decode_illegal : decode [0x12, 0, 5, 0, 3, 0, 0, 0, 0, 6, 0x50] = .illegal 0x12 [0x50] := by decide
theorem test_decode_waits_for_the_payload : decode [0x60, 0, 0, 0, 0, 0, 0, 0, 0x04, 0, 0xAA] = .incomplete := by decide

/-- R104, "Assembling": drawLine(-2, -1, 3, 4, 5) and setPixel(5, 3, (2, 1)). -/
theorem test_encode : encodeWord (.drawLine 0xFFFE 0xFFFF 3 4 5) = 0x42FFFEFFFF0003000405 ∧
    encodeWord (.setPixel 5 3 6) = 0x10000500030000000006 := by decide

/-! ## One step each -/

-- section 2.2, last row but four: setPixel(5, 3, 0x00) over plane bytes 0xFF
theorem test_setPixel_over_ones : run1 [(0x0091, 0xFF), (0x2449, 0xFF)] 0x10000500030000000000 =
    some ([(0x0091, 0xF3), (0x2449, 0xDF)], some 0) := by decide +kernel

-- section 2.2, "With PAL_BASE = 0x2400 instead"
theorem test_setPixel_other_pal_base :
    after { State.reset.withFetchWord 80 0x1000BF00BF0000000007 with palBase := .x2400 } =
      some ([(0x23FF, 0xC0), (0x35FF, 0x80)], some 0) := by decide +kernel

-- S1, and the row getPixel(192, 0)
theorem test_getPixel_recombines : run1 [(0x0091, 0x08), (0x2449, 0x20)] 0x11000500030000000000 =
    some ([(0x0091, 0x08), (0x2449, 0x20)], some 0x00000006) := by decide +kernel
theorem test_getPixel_out_of_range : run1 [] 0x1100C000000000000000 = some ([], some 0x03000000) := by decide +kernel

-- section 2.3
theorem test_setPaletteA_keeps_low_nibble : run1 [(0x3601, 0x93)] 0x20000000000000000000 =
    some ([(0x3601, 0x03)], some 0) := by decide +kernel
theorem test_setPaletteA_takes_mod_16 : run1 [] 0x20001F00000000000000 =
    some ([(0x3601, 0xF0)], some 0) := by decide +kernel
theorem test_setPaletteB_keeps_high_nibble : run1 [(0x3601, 0x90)] 0x21000300000000000000 =
    some ([(0x3601, 0x93)], some 0) := by decide +kernel
theorem test_getPalettes : run1 [(0x3601, 0x93)] 0x22000000000000000000 =
    some ([(0x3601, 0x93)], some 0x00000093) := by decide +kernel
theorem test_setBackground_takes_three_bits : run1 [] 0x230000000000000000FF =
    some ([(0x3602, 0xE0)], some 0) := by decide +kernel
theorem test_setBackground_keeps_low_bits : run1 [(0x3602, 0x1F)] 0x23000000000000000002 =
    some ([(0x3602, 0x5F)], some 0) := by decide +kernel

-- section 2.4
theorem test_setCamera_big_endian : run1 [] 0x301234ABCD0000000000 =
    some ([(0x3603, 0x12), (0x3604, 0x34), (0x3605, 0xAB), (0x3606, 0xCD)], some 0) := by decide +kernel
theorem test_setClip_low_bytes : run1 [(0x360B, 0x77)] 0x31FFFF010000FF000000 =
    some ([(0x360A, 0xFF), (0x360C, 0xFF)], some 0) := by decide +kernel
theorem test_resetClip : run1 [(0x360A, 0x08)] 0x32000000000000000000 =
    some ([(0x360C, 0xC0), (0x360D, 0xC0)], some 0) := by decide +kernel

-- section 2.5
theorem test_drawRectBorder_leaves_interior : run1 [] 0x40000100010004000303 =
    some ([(0x30, 0xFC), (0x31, 0x03), (0x60, 0x0C), (0x61, 0x03), (0x90, 0xFC), (0x91, 0x03)], some 0) := by
  decide +kernel
theorem test_drawRectBorder_off_canvas_edge : run1 [] 0x4000BE00BE0005000501 =
    some ([(0x23CF, 0x50), (0x23FF, 0x10)], some 0) := by decide +kernel
theorem test_fillRect_negative_corner : run1 [] 0x41FFFDFFFD0005000501 =
    some ([(0x0000, 0x05), (0x0030, 0x05)], some 0) := by decide +kernel
theorem test_fillRect_far_camera_does_not_wrap : run1 [(0x3603, 0x7F), (0x3604, 0xFF)] 0x417FFF00000002000103 =
    some ([(0x0000, 0x0F), (0x3603, 0x7F), (0x3604, 0xFF)], some 0) := by decide +kernel
theorem test_drawLine_floors_down : run1 [] 0x42000000050004000201 =
    some ([(0x60, 0x40), (0x90, 0x10), (0xC0, 0x04), (0xF0, 0x01)], some 0) := by decide +kernel
theorem test_drawLine_drops_off_canvas : run1 [] 0x42FFFEFFFF0003000405 =
    some ([(0x30, 0x01), (0x60, 0x04), (0x90, 0x10), (0x2419, 0x01), (0x2431, 0x02), (0x2449, 0x04)], some 0) := by
  decide +kernel

-- S3, c = 5; read through the store law, since the two planes are 13824 bytes
theorem test_clearScreen_fills_both_planes :
    ∃ t, exec .clearScreen (withMem [(0x3602, 0xA0)]) = .next t ∧
      [0x0000, 0x23FF, 0x2400, 0x2401, 0x3600, 0x3601, 0x3602].map t.mem.read =
        [0x55, 0x55, 0x00, 0xFF, 0xFF, 0x00, 0xA0] := by
  refine ⟨_, rfl, ?_⟩
  have h := fun a => read_clearTo (pb := .x2401) (i := 1) (b := 1) (m := [(0x3602, 0xA0)]) (by decide) a
  show List.map (Memory.read (clearTo .x2401 1 1 [(0x3602, 0xA0)])) _ = _
  simp only [List.map, h]
  decide

-- section 2.6
theorem test_advance_wraps : run1 [(0x3607, 0xFF), (0x3608, 0xFF), (0x3609, 0xFF)] 0x50000000000000000000 =
    some ([], some 0) := by decide +kernel
theorem test_advance_carries : run1 [(0x3608, 0xFF), (0x3609, 0xFF)] 0x50000000000000000000 =
    some ([(0x3607, 0x01)], some 0) := by decide +kernel
theorem test_frames_big_endian : run1 [(0x3607, 0x01), (0x3608, 0x23), (0x3609, 0x45)] 0x51000000000000000000 =
    some ([(0x3607, 0x01), (0x3608, 0x23), (0x3609, 0x45)], some 0x00012345) := by decide +kernel
theorem test_load_bad_length : after { State.reset with
      port := [0x60, 0, 0, 0, 0, 0, 0, 0, 0x04, 0, 0xAA, 0xBB, 0xCC, 0xDD] } = some ([], some 0x02000000) := by
  decide +kernel
/-- The payload P[i] = i mod 256. -/
def ramp : List Byte := (List.range 0x3000).map (BitVec.ofNat 8)

theorem test_load_copies :
    ∃ t, exec (.loadSpriteSheet 0x3000 ramp) State.reset = .next t ∧
      [0x3F49, 0x3F4A, 0x4048, 0x4049, 0x6F48, 0x6F49].map t.mem.read = [0x00, 0x01, 0xFF, 0x00, 0xFF, 0x00] := by
  have hl : ramp.length = 0x3000 := by simp only [ramp, List.length_map, List.length_range]
  have hg : ∀ k, k < 0x3000 → ramp.getD k 0 = BitVec.ofNat 8 k := fun k hk => by simp [ramp, List.getD, hk]
  generalize ramp = p at hl hg ⊢
  have ht : p.take spriteSheetSize = p := List.take_of_length_le (by rw [hl]; exact Nat.le_refl _)
  have h := fun a => Memory.read_store (a := addrUserSprites) (x := a) (bs := p) (m := []) (by rw [hl]; decide) rfl
  refine ⟨_, rfl, ?_⟩
  simp only [respond_mem, setMem_mem, ht]
  simp only [List.map, show State.reset.mem = [] from rfl, h, hl]
  rw [if_pos (by decide), if_pos (by decide), if_pos (by decide), if_pos (by decide), if_pos (by decide),
    if_neg (by decide), hg _ (by decide), hg _ (by decide), hg _ (by decide), hg _ (by decide), hg _ (by decide)]
  decide

-- section 2.7
theorem test_illegal_opcode : run1 [(0x3601, 0x93)] 0x7F000100020003000405 =
    some ([(0x3601, 0x93)], some 0x01000000) := by decide +kernel

-- P4: the input sample, then the published frame of Draw's M
theorem test_sampleInput : after { State.reset with phase := .callbacks, moves := [.sampleInput padSample] } =
    some ([(0x360E, 0x64), (0x360F, 0x32), (0x3610, 0x01), (0x3611, 0x80), (0x3647, 0xFF)], none) := by decide +kernel
theorem test_publish :
    (match step { withMem [(0x2401, 0x01), (0x3609, 0x01)] with phase := .sampled, moves := [.publish] } with
      | .next t => some t.published
      | .fault _ => none
      | .refused _ => none) = some [[(0x2401, 0x01)]] := by decide +kernel

-- 70_reset_and_hazards.md R280: construction; 10_state.md R47: no command after destruction
theorem test_construct : after { busy with constructed := false, port := [], moves := [.construct] } =
    some ([], none) := by decide +kernel
theorem test_destroy : (match step { busy with port := [], phase := .callbacks, moves := [.destroy] } with
      | .next t => some (t.constructed, t.port, t.phase)
      | .fault _ => none
      | .refused _ => none) = some (false, [], .betweenTicks) := by decide +kernel
theorem test_destroyed_block_takes_no_command :
    step { State.reset with constructed := false, moves := [.issue (encode .advance)] } = .fault .notConstructed := rfl

-- 45_host_interface.md R238: two commands at once, a load without its payload, a sample outside a tick, a second sample
theorem test_host_issues_one_command :
    step { State.reset with moves := [.issue (encode .advance ++ encode .frames)] } = .fault .notOneCommand := rfl
theorem test_host_issues_the_whole_payload :
    step { State.reset with moves := [.issue [0x60, 0, 0, 0, 0, 0, 0, 0, 0x04, 0, 0xAA]] } = .fault .notOneCommand := rfl
theorem test_no_sample_outside_a_tick :
    step { State.reset with moves := [.sampleInput padSample] } = .fault .outsideItsPlace := rfl
theorem test_no_command_between_sample_and_publish :
    step { State.reset with phase := .sampled, moves := [.issue (encode .frames)] } = .fault .outsideItsPlace := rfl

/-! ## Witnesses: for each statement with hypotheses, a state and operands that meet them together -/

theorem witness_EncodeThenDecodeIsIdentity :
    Instr.wf (.loadSpriteSheet 2 [0xAA, 0xBB]) = true ∧ Instr.wf (.loadSpriteSheet 0 []) = true := by decide

theorem witness_WordsAreCommandsOrIllegal :
    (fieldOp 0x60000000000000000200 ∈ opcodes ∧ (fieldLen 0x60000000000000000200).toNat ≤ [0xAA#8, 0xBB#8].length) ∧
    (fieldOp 0x7F000100020003000405 ∉ opcodes ∧ State.reset.constructed = true ∧
      (State.reset.withFetchWord 80 0x7F000100020003000405).port = wordBytes 0x7F000100020003000405 ++ []) := by decide

theorem witness_UnusedFieldsAreIgnored :
    (0x43123456789ABCDEF0FF#80) &&& usedMask (fieldOp 0x43123456789ABCDEF0FF) =
      0x43000000000000000000#80 &&& usedMask (fieldOp 0x43123456789ABCDEF0FF) := by decide

theorem witness_ReservedOperandBitsAreIgnored :
    (0x06#8).toNat % 8 = (0xFE#8).toNat % 8 ∧ (0x000F#16).toNat % 16 = (0xFFFF#16).toNat % 16 ∧
    (0x00C0#16).toNat % 256 = (0x01C0#16).toNat % 256 := by decide

theorem witness_StepExecutesTheCommandOnThePort :
    State.reset.constructed = true ∧ decode [0x50, 0, 0, 0, 0, 0, 0, 0, 0, 0, 0x51] = .instr .advance [0x51] := by decide

theorem witness_RejectionsAreExactlyThese :
    State.reset.constructed = true ∧ decode [0x44, 0, 0, 0, 0, 0, 0, 0, 0, 0] = .illegal 0x44 [] := by decide

/-- Clause by clause: nothing planned; a command between ticks; an illegal word. -/
theorem witness_IdleBlockWaitsForACommand :
    State.reset.constructed = true ∧ State.reset.port = [] ∧ State.reset.moves = [] ∧
    (Instr.wf (.setPixel 0xFFFF 0xFFFF 0xFF) = true ∧ State.reset.phase ≠ .sampled ∧
      ({ State.reset with moves := [.issue (encode (.setPixel 0xFFFF 0xFFFF 0xFF)), .startTick] } : State).moves =
        .issue (encode (.setPixel 0xFFFF 0xFFFF 0xFF)) :: [.startTick]) ∧
    fieldOp 0x44000000000000000000 ∉ opcodes := by decide

/-- A constructed block after the callbacks, its port empty, about to sample. -/
def samplingState : State := { busy with port := [], phase := .callbacks, moves := [.sampleInput padSample] }

theorem witness_SampleInputWritesTheInputBytes :
    samplingState.constructed = true ∧ samplingState.port = [] ∧ samplingState.mem.wf = true ∧
    samplingState.phase = .callbacks ∧ samplingState.moves = .sampleInput padSample :: [] ∧
    exec .frames samplingState = .next { samplingState with responses := [⟨.ok, 1⟩] } :=
  ⟨rfl, rfl, by decide, rfl, rfl, rfl⟩

/-- The reset state meets the invariant (used by the witnesses below). -/
theorem reset_inv : State.reset.Inv :=
  ⟨rfl, fun _ _ => rfl, by decide, by simp [State.reset], .inl rfl⟩

/-- A constructed block after the sample of a tick, about to publish, in the invariant. -/
def publishingState : State := { State.reset with phase := .sampled, moves := [.publish] }

theorem witness_PublishCopiesTheFrameRegion :
    publishingState.Inv ∧ publishingState.constructed = true ∧ publishingState.port = [] ∧
    publishingState.phase = .sampled ∧ publishingState.palBase = .x2401 ∧ publishingState.moves = .publish :: [] ∧
    0x2400 < palBaseAddr publishingState.palBase + 0x1200 :=
  ⟨⟨rfl, fun _ _ => rfl, by decide, by simp [publishingState, State.reset], .inl rfl⟩,
    rfl, rfl, rfl, rfl, rfl, by decide⟩

/-- Clause by clause: a running block, and a destroyed one. -/
theorem witness_ConstructionResetsM :
    (fetch { busy with moves := [.construct] } = .incomplete ∧
      ({ busy with moves := [.construct] } : State).moves = .construct :: []) ∧
    fetch { busy with constructed := false, moves := [.construct] } = .incomplete := by decide +kernel

/-- A block between ticks whose host plans one tick and then the end. -/
def tickingState : State :=
  let tick := tickMoves [encode .frames, wordBytes 0x7F000100020003000405] [encode (.getPixel 192 0)] padSample
  { State.reset with moves := tick ++ [.destroy] }

/-- Update holds frames and an illegal word, Draw a getPixel off the canvas. -/
theorem witness_TickRunsInOrder :
    (∀ bytes ∈ [encode .frames, wordBytes 0x7F000100020003000405] ++ [encode (.getPixel 192 0)], OneCommand bytes) ∧
    tickingState.moves =
      tickMoves [encode .frames, wordBytes 0x7F000100020003000405] [encode (.getPixel 192 0)] padSample ++ [.destroy] ∧
    tickingState.constructed = true ∧ tickingState.port = [] ∧ tickingState.phase = .betweenTicks := by
  refine ⟨?_, rfl, rfl, rfl, rfl⟩
  intro bytes h
  exact (isOneCommand_iff bytes).1 (by revert bytes h; decide)

/-- Each fault occurs, and the third clause has a state. -/
theorem witness_StepStopsOnlyOnHostMisuse :
    step { State.reset with constructed := false, moves := [.publish] } = .fault .notConstructed ∧
    step { busy with moves := [.publish] } = .fault .hostActInsideCommand ∧
    step { State.reset with moves := [.issue [0x50]] } = .fault .notOneCommand ∧
    step { State.reset with phase := .callbacks, moves := [.startTick] } = .fault .outsideItsPlace ∧
    decode (State.reset.withFetchWord 80 0x44000000000000000000).port ≠ .incomplete :=
  ⟨rfl, rfl, rfl, rfl, by decide⟩

/-- Both alternatives of the statement: an empty port, and one load of LEN 4 on it. -/
theorem witness_OneCommandAtATime :
    (State.reset.Inv ∧ State.reset.constructed = true ∧ State.reset.port = []) ∧
    ({ State.reset with port := encode (.loadSpriteSheet 4 [1, 2, 3, 4]) } : State).Inv :=
  ⟨⟨reset_inv, rfl, rfl⟩, rfl, fun _ _ => rfl, by decide, by simp [State.reset], .inr (by decide)⟩

/-- A step of each alternative: construction, a tick's start, the sample, the publish, a command issued and one served. -/
theorem witness_HostActsOnlyAtItsPlaces :
    (∃ t, step { busy with moves := [.construct] } = .next t) ∧
    (∃ t, step { State.reset with moves := [.startTick] } = .next t) ∧ (∃ t, step samplingState = .next t) ∧
    (∃ t, step publishingState = .next t) ∧ (∃ t, step { State.reset with moves := [.issue (encode .frames)] } = .next t) ∧
    (∃ t, step { State.reset with port := encode .frames } = .next t) :=
  ⟨⟨_, rfl⟩, ⟨_, rfl⟩, ⟨_, rfl⟩, ⟨_, rfl⟩, ⟨_, rfl⟩, ⟨_, rfl⟩⟩

/-- A block that is not constructed, with a whole command on its port. -/
def destroyedState : State := { State.reset with constructed := false, port := encode .advance }

/-- Clause by clause: nothing planned; a command inside and outside a tick; the other acts at their places. -/
theorem witness_HostLibertiesAreAllowed :
    State.reset.constructed = true ∧ State.reset.port = [] ∧ State.reset.moves = [] ∧
    OneCommand (wordBytes 0x7F000100020003000405) ∧ InItsPlace (.issue (wordBytes 0x7F000100020003000405)) .callbacks ∧
    InItsPlace (.issue (wordBytes 0x7F000100020003000405)) .betweenTicks ∧ InItsPlace .startTick .betweenTicks ∧
    InItsPlace (.sampleInput padSample) .callbacks ∧ InItsPlace .publish .sampled ∧ InItsPlace .destroy .callbacks := by
  refine ⟨rfl, rfl, rfl, (isOneCommand_iff _).1 (by decide), ?_⟩
  simp [InItsPlace]

/-- Clause by clause: destroying inside a tick, with the beginning of a command on the port too; then a destroyed block
with a whole command on its port, that idles, is sent a command, is constructed. -/
theorem witness_DestroyedBlockAcceptsNoCommand :
    (busy.constructed = true ∧ fetch { busy with phase := .callbacks, moves := [.destroy] } = .incomplete) ∧
    (destroyedState.constructed = false ∧ destroyedState.moves = [] ∧ step destroyedState = .next destroyedState) ∧
    step { destroyedState with moves := [.issue (encode .frames)] } = .fault .notConstructed ∧
    (∃ t, step { destroyedState with moves := [.construct] } = .next t) :=
  ⟨⟨rfl, rfl⟩, ⟨rfl, rfl, rfl⟩, rfl, _, rfl⟩

/-- An empty port, and one on which a command waits. -/
theorem witness_StepKeepsTheInvariant :
    State.reset.Inv ∧ (∃ t, step State.reset = .next t) ∧
    ({ State.reset with port := encode .advance } : State).Inv ∧
    ∃ t, step { State.reset with port := encode .advance } = .next t :=
  ⟨reset_inv, ⟨_, rfl⟩, ⟨rfl, fun _ _ => rfl, by decide, by simp [State.reset], .inr (by decide)⟩, _, rfl⟩

/-- A step whose row is PAL, and an address one below it. -/
theorem witness_StepWritesOnlyItsRow :
    (withMem busy.mem).mem.wf = true ∧
    (∃ t, step ((withMem busy.mem).withFetchWord 80 0x20000900000000000000) = .next t) ∧
    ¬ StepMayWrite ((withMem busy.mem).withFetchWord 80 0x20000900000000000000) 0x3600 := by
  refine ⟨by decide, ⟨_, rfl⟩, ?_⟩
  have h : fetch ((withMem busy.mem).withFetchWord 80 0x20000900000000000000) = .instr (.setPaletteA 9) [] := by decide
  simp [StepMayWrite, h, MayWrite]

/-- getPixel(5, 3): two states that agree on its two bytes and differ in the byte beside them. -/
theorem witness_CommandsReadOnlyWhatTheyConsult :
    busy.mem.wf = true ∧ (busy.mem.store 0x0092 [0xFF]).wf = true ∧
    (∀ a, Consults busy.palBase (.getPixel 5 3) a → (busy.mem.store 0x0092 [0xFF]).read a = busy.mem.read a) ∧
    (busy.mem.store 0x0092 [0xFF]).read 0x0092 ≠ busy.mem.read 0x0092 := by
  refine ⟨by decide, by decide, ?_, by decide⟩
  rintro a ⟨-, h | h⟩ <;> subst h <;> decide

theorem witness_ClipRegistersAreInert :
    busy.mem.wf = true ∧ (busy.mem.store 0x360A [0, 0, 0, 1]).wf = true ∧
    (∀ a, ¬ (0x360A ≤ a ∧ a ≤ 0x360D) → (busy.mem.store 0x360A [0, 0, 0, 1]).read a = busy.mem.read a) ∧
    (busy.mem.store 0x360A [0, 0, 0, 1]).read 0x360D ≠ busy.mem.read 0x360D := by
  refine ⟨by decide, by decide, fun a h => Memory.read_store_outside (by decide) (by decide) ?_, by decide⟩
  simp; omega

/-- A block whose host is about to issue a command. -/
def issuing : State := { busy with port := [], moves := [.issue (encode .frames)] }

/-- Clause one: an advance. Clause two: the host issues a command, and construction is not what it does. -/
theorem witness_FramesMovesOnlyByAdvance :
    (fetch (State.reset.withFetchWord 80 0x50000000000000000000) = .instr .advance [] ∧
      ∃ t, step (State.reset.withFetchWord 80 0x50000000000000000000) = .next t) ∧
    (issuing.mem.wf = true ∧ (∃ t, step issuing = .next t) ∧ (∀ rest, fetch issuing ≠ .instr .advance rest) ∧
      ¬ HostRebuilds issuing) := by
  have h : fetch issuing = .incomplete := by decide
  refine ⟨⟨by decide, _, rfl⟩, by decide, ⟨_, rfl⟩, fun rest hr => ?_, ?_⟩
  · rw [h] at hr; cases hr
  · simp [HostRebuilds, issuing]

/-- The edges of M and the byte beside the palette-select plane. -/
theorem witness_RegionsPartitionM :
    Region.colourPlane.holds .x2401 0 ∧ Region.gap.holds .x2401 0x2400 ∧ Region.palettePlane.holds .x2400 0x2400 ∧
    Region.gap.holds .x2400 0x3600 ∧ Region.palettePlane.holds .x2401 0x3600 ∧ Region.upper.holds .x2401 0xFFFF := by
  decide

theorem witness_PlaneAddressesCoverThePlanes :
    colourAddr 191 191 = 0x23FF ∧ colourShift 191 = 2 * 3 ∧ bankAddr .x2401 191 191 = 0x3600 ∧ bankShift 191 = 7 ∧
    colourAddr 0 0 = 0 ∧ bankAddr .x2401 0 0 = 0x2401 := by decide

theorem witness_SetPixelPaintsOnePixel :
    busy.mem.wf = true ∧ OnCanvas (191#16).toInt (0#16).toInt ∧ ¬ OnCanvas (192#16).toInt (0#16).toInt ∧
    ¬ OnCanvas (0#16).toInt (0xFFFF#16).toInt := by unfold OnCanvas; decide

theorem witness_GetPixelAnswersTheColour :
    OnCanvas (0#16).toInt (191#16).toInt ∧ ¬ OnCanvas (0#16).toInt (192#16).toInt := by unfold OnCanvas; decide

theorem witness_SetPixelGetPixelRoundTrip :
    busy.mem.wf = true ∧ OnCanvas (191#16).toInt (191#16).toInt := by unfold OnCanvas; decide

theorem witness_SetPixelLeavesOtherPixelsAlone :
    busy.mem.wf = true ∧ ((4#16, 3#16) ≠ (5#16, 3#16)) := by decide

theorem witness_SetPaletteAWritesTheHighNibble :
    busy.mem.wf = true ∧ (0x1F#16).toNat % 16 * 16 + (busy.mem.read 0x3601).toNat % 16 = 0xF3 := by decide
theorem witness_SetPaletteBWritesTheLowNibble :
    busy.mem.wf = true ∧ (busy.mem.read 0x3601).toNat / 16 * 16 + (0x1F#16).toNat % 16 = 0x9F := by decide
theorem witness_SetBackgroundWritesTheTopBits :
    busy.mem.wf = true ∧ (0xFF#8).toNat % 8 * 32 + (busy.mem.read 0x3602).toNat % 32 = 0xE0 := by decide
theorem witness_SetCameraStoresBothFields : busy.mem.wf = true ∧ busy.camX = 10 ∧ busy.camY = 20 := by decide
theorem witness_SetClipStoresTheLowBytes : busy.mem.wf = true ∧ (0x1C0#16).toNat % 256 = 0xC0 := by decide
theorem witness_ResetClipStoresTheFullCanvas : busy.mem.wf = true ∧ busy.clipX = 8 := by decide

/-- The third clause at its smallest box: 3 by 3 has 8 border pixels (section 2.5). -/
theorem witness_DrawRectBorderIsItsLoop : (borderLoop 0 0 3 3 0 0).length = 8 := by decide

theorem witness_RectanglesPaintTheirClosedForm :
    busy.mem.wf = true ∧ InBox busy 10 20 5 5 0 0 ∧ InBox busy 10 20 5 5 4 4 ∧ ¬ InBox busy 10 20 5 5 5 0 ∧
    OnBorder busy 10 20 5 5 4 2 ∧ ¬ OnBorder busy 10 20 5 5 1 1 := by unfold OnBorder InBox; decide

/-- One pixel of each branch of the line (section 2.5): wide, wide swapped, vertical. -/
theorem witness_DrawLinePaintsItsPixels :
    State.reset.mem.wf = true ∧ OnLine State.reset 0 0 5 2 2 0 ∧ OnLine State.reset 10 0 0 0 9 0 ∧
    OnLine State.reset 7 8 7 3 7 7 ∧ ¬ OnLine State.reset 7 8 7 3 7 8 := by
  have h : State.reset.camX = 0 ∧ State.reset.camY = 0 := by decide
  refine ⟨rfl, ?_, ?_, ?_, ?_⟩ <;> simp [OnLine, OnWideLine, h]
  norm_num [Int.floor_eq_iff]

theorem witness_ThinBordersAreFilledBoxes : (2#16).toInt ≤ 2 ∧ (0x8000#16).toInt ≤ 2 := by decide

theorem witness_PlottingDependsOnTheSetOnly :
    busy.mem.wf = true ∧ ∀ rx ry, OnCanvas rx ry →
      ((rx, ry) ∈ [((1 : Int), (2 : Int)), (3, 4), (192, 0)] ↔ (rx, ry) ∈ [(3, 4), (1, 2), (1, 2)]) := by
  refine ⟨by decide, fun rx ry h => ?_⟩
  unfold OnCanvas at h
  simp
  omega

theorem witness_LineYProperties : (0 : Int) < 4 ∧ (0 : Int) ≤ 3 ∧ (3 : Int) < 4 ∧ (-3 : Int) < 0 := by decide

theorem witness_LinesCountTheirPixels :
    (0 : Int) ≠ 3 ∧ (0x8000#16).toInt ≤ (32766 : Int) ∧ (32766 : Int) < (0x7FFF#16).toInt := by decide

theorem witness_ClearScreenFillsBothPlanes :
    busy.mem.wf = true ∧ OnCanvas (0#16).toInt (0#16).toInt ∧ OnCanvas (191#16).toInt (191#16).toInt := by
  unfold OnCanvas; decide

/-- S4: camera (10, 20) against camera (0, 0), the same planes, the operands moved by (-10, -20). -/
theorem witness_CameraIsAPureShift :
    (withMem [(0x3604, 0x0A), (0x3606, 0x14)]).mem.wf = true ∧ State.reset.mem.wf = true ∧
    SamePicture (withMem [(0x3604, 0x0A), (0x3606, 0x14)]) State.reset ∧
    ((State.reset.camX : Int) = (withMem [(0x3604, 0x0A), (0x3606, 0x14)]).camX + (-10)) ∧
    ((State.reset.camY : Int) = (withMem [(0x3604, 0x0A), (0x3606, 0x14)]).camY + (-20)) ∧
    (0#16).toInt = (10#16).toInt + (-10) ∧ (0#16).toInt = (20#16).toInt + (-20) := by
  refine ⟨by decide, rfl, ?_, by decide, by decide, by decide, by decide⟩
  intro x y hx hy
  have h : ∀ a, a < 0x3601 → (withMem [(0x3604, 0x0A), (0x3606, 0x14)]).mem.read a = State.reset.mem.read a := by
    intro a ha
    have h1 : ¬ 0x3604 = a := by omega
    have h2 : ¬ 0x3606 = a := by omega
    simp [withMem, State.reset, State.setMem, Memory.read, h1, h2]
  simp only [colourAt, indexAt, bankAt]
  rw [h _ (by omega), h _ (by simp [withMem, State.reset, State.setMem, palBaseAddr]; omega)]
  rfl

/-- Clause by clause, at the smallest camera each clause asks for. -/
theorem witness_FarCameraHidesShapes :
    32767 < (withMem [(0x3603, 0x80)]).camX ∧ 32767 < (withMem [(0x3605, 0x80)]).camY ∧
    65534 ≤ (withMem [(0x3603, 0xFF), (0x3604, 0xFE)]).camX ∧ 65534 ≤ (withMem [(0x3605, 0xFF), (0x3606, 0xFE)]).camY := by
  decide

theorem witness_AdvanceCountsModulo2To24 :
    (withMem [(0x3607, 0xFF), (0x3608, 0xFF), (0x3609, 0xFF)]).mem.wf = true ∧
    (withMem [(0x3607, 0xFF), (0x3608, 0xFF), (0x3609, 0xFF)]).frameCount = 0xFFFFFF := by decide

theorem witness_LoadCopiesThePayloadOrRejects :
    [0xAA#8, 0xBB#8].length = (0x0000#16 ++ 0x0002#16 : BitVec 32).toNat ∧ busy.mem.wf = true ∧
    (List.replicate 0x3000 (0#8)).length = 0x3000 ∧ (0x2FFF : BitVec 32) ≠ 0x3000 := by
  refine ⟨by decide, by decide, List.length_replicate, by decide⟩

end Sys2Proof.Tests
end

section
/-! PROOF. The reset state (10_state.md R46): what an address that nothing has written reads as, and what every register
therefore reads as at reset. -/

open Sys2Proof Sys2Proof.Machine Sys2Proof.Claims

namespace Sys2Proof.Machine

/-- The reset contents with the region cut at the payload's own end: past it, BUILTIN's bytes read 0x00 anyway (R40). -/
theorem Memory.unlisted_eq_builtin (a : Nat) :
    Memory.unlisted a =
      if 0x3648 ≤ a ∧ a < 0x3648 + min Config.builtin.length 0x901 then Config.builtin.getD (a - 0x3648) 0 else 0 := by
  unfold Memory.unlisted
  by_cases hin : a - 0x3648 < Config.builtin.length
  · have hcut : (0x3648 ≤ a ∧ a ≤ 0x3F48) ↔ (0x3648 ≤ a ∧ a < 0x3648 + min Config.builtin.length 0x901) := by omega
    simp only [hcut]
  · have hpast : Config.builtin.getD (a - 0x3648) 0 = 0 := List.getD_eq_default _ _ (by omega)
    simp only [hpast, ite_self]

/-- Below the built-in sprite region nothing is set at reset. -/
theorem Memory.unlisted_below_builtin {a : Nat} (ha : a < 0x3648) : Memory.unlisted a = 0 :=
  if_neg (by omega)

/-- At reset no cell is listed in M (R46). -/
theorem State.reset_read (a : Nat) : State.reset.mem.read a = Memory.unlisted a := rfl

/-- The planes and all registers lie below the built-in sprite region, so at reset each of their bytes is 0. -/
theorem State.reset_read_below_builtin {a : Nat} (ha : a < 0x3648) : State.reset.mem.read a = 0 := by
  rw [State.reset_read, Memory.unlisted_below_builtin ha]

end Sys2Proof.Machine

namespace Sys2Proof.Claims

/-- A canvas pixel whose two bytes are 0 has colour 0 (R91). -/
theorem colourAt_eq_zero {s : State} {x y : Nat} (hindex : s.mem.read (x / 4 + y * 48) = 0)
    (hbank : s.mem.read (palBaseAddr s.palBase + x / 8 + y * 24) = 0) : colourAt s x y = 0 := by
  simp [colourAt, indexAt, bankAt, hindex, hbank]

/-- Every canvas pixel has colour 0 at reset. -/
theorem colourAt_reset {x y : Nat} (hx : x < 192) (hy : y < 192) : colourAt State.reset x y = 0 := by
  have hbase := palBaseAddr_le State.reset.palBase
  exact colourAt_eq_zero (State.reset_read_below_builtin (by omega)) (State.reset_read_below_builtin (by omega))

end Sys2Proof.Claims

namespace Sys2Proof.Machine

/-! ## The registers at reset -/

theorem State.reset_pal : State.reset.pal = 0 := State.reset_read_below_builtin (by decide)

theorem State.reset_bg : State.reset.bg = 0 := State.reset_read_below_builtin (by decide)

/-- A two-byte register reads 0 at reset. -/
theorem State.reset_memRead_two {a : Nat} (ha : a + 1 < 0x3648) : memRead State.reset.mem a 2 = 0 := by
  rw [memRead_two, State.reset_read_below_builtin (by omega), State.reset_read_below_builtin ha]
  rfl

/-- A three-byte register reads 0 at reset. -/
theorem State.reset_memRead_three {a : Nat} (ha : a + 2 < 0x3648) : memRead State.reset.mem a 3 = 0 := by
  rw [memRead_three, State.reset_read_below_builtin (by omega), State.reset_read_below_builtin (by omega),
    State.reset_read_below_builtin ha]
  rfl

/-- The last key byte is 0x3647, just below the built-in sprite region (R38). -/
theorem State.reset_key (k : Fin 55) : State.reset.key k = 0 :=
  State.reset_read_below_builtin (by unfold addrInput; omega)

end Sys2Proof.Machine

/-- Settles O13: M byte by byte from the reset contents, then each register from the zeros below BUILTIN. -/
theorem resetStateIsAsStated : Obligations.ResetStateIsAsStated := by
  unfold Obligations.ResetStateIsAsStated
  refine ⟨fun a => (State.reset_read a).trans (Memory.unlisted_eq_builtin a), fun _ _ => colourAt_reset,
    ?palA, ?palB, ?bgColour, ?camX, ?camY, ?frameCount, ?clipX, ?clipY, ?clipW, ?clipH, ?mouseX, ?mouseY, ?mouseButtons,
    State.reset_key⟩
  case palA => rw [State.palA, State.reset_pal]; rfl
  case palB => rw [State.palB, State.reset_pal]; rfl
  case bgColour => rw [State.bgColour, State.reset_bg]; rfl
  case camX | camY => exact State.reset_memRead_two (by decide)
  case frameCount => exact State.reset_memRead_three (by decide)
  case clipX | clipY | clipW | clipH | mouseX | mouseY | mouseButtons =>
    exact State.reset_read_below_builtin (by decide)
end

section
/-! PROOF. The multi-byte registers (20_memory.md R60): each one as the bytes it is read from, high byte first. -/

open Sys2Proof Sys2Proof.Machine Sys2Proof.Claims

namespace Sys2Proof.Machine

theorem State.camX_eq_bytes (s : State) :
    s.camX = (s.mem.read 0x3603).toNat * 256 + (s.mem.read 0x3604).toNat :=
  memRead_two s.mem addrCamX

theorem State.camY_eq_bytes (s : State) :
    s.camY = (s.mem.read 0x3605).toNat * 256 + (s.mem.read 0x3606).toNat :=
  memRead_two s.mem addrCamY

theorem State.frameCount_eq_bytes (s : State) :
    s.frameCount =
      (s.mem.read 0x3607).toNat * 65536 + (s.mem.read 0x3608).toNat * 256 + (s.mem.read 0x3609).toNat :=
  memRead_three s.mem addrFrames

end Sys2Proof.Machine

/-- Settles O23: each register is a `memRead` of two or three bytes, which is big-endian. -/
theorem registersAreBigEndian : Obligations.RegistersAreBigEndian :=
  fun s => ⟨s.camX_eq_bytes, s.camY_eq_bytes, s.frameCount_eq_bytes⟩
end

section
/-! PROOF. Every word on the port (30_encoding.md R100; 60_exceptions.md R251): one of the sixteen commands, or illegal
and rejected. -/

open Sys2Proof Sys2Proof.Machine Sys2Proof.Claims

namespace Sys2Proof

/-- An op outside the opcode map is illegal, and takes nothing from the bytes behind its word (R100, R251). -/
theorem decodeWord_illegal {w : CommandWord} (h : fieldOp w ∉ opcodes) (rest : List Byte) :
    decodeWord w rest = .illegal (fieldOp w) rest := by
  unfold decodeWord
  split
  case h_17 => rfl
  all_goals next hop => exact absurd (by rw [hop]; decide) h

/-- The sixteen operation codes, one case each (R99). -/
theorem mem_opcodes_iff (op : Byte) :
    op ∈ opcodes ↔
      op = 0x10 ∨ op = 0x11 ∨ op = 0x20 ∨ op = 0x21 ∨ op = 0x22 ∨ op = 0x23 ∨ op = 0x30 ∨ op = 0x31 ∨
      op = 0x32 ∨ op = 0x40 ∨ op = 0x41 ∨ op = 0x42 ∨ op = 0x43 ∨ op = 0x50 ∨ op = 0x51 ∨ op = 0x60 := by
  simp only [opcodes, List.mem_cons, List.not_mem_nil, or_false]

/-- What a word of the opcode map stands for: the command of its op, with the payload a load announces taken off the
bytes behind the word (R99, R103). -/
theorem decodeWord_command {w : CommandWord} {rest : List Byte} (hop : fieldOp w ∈ opcodes)
    (hlen : fieldOp w = 0x60 → (fieldLen w).toNat ≤ rest.length) :
    ∃ i rest', decodeWord w rest = .instr i rest' ∧ opcode i = fieldOp w ∧ i.wf = true ∧
      payloadOf i ++ rest' = rest := by
  rcases (mem_opcodes_iff _).1 hop with h | h | h | h | h | h | h | h | h | h | h | h | h | h | h | h
  · exact ⟨_, rest, decodeWord_setPixel h rest, h.symm, rfl, rfl⟩
  · exact ⟨_, rest, decodeWord_getPixel h rest, h.symm, rfl, rfl⟩
  · exact ⟨_, rest, decodeWord_setPaletteA h rest, h.symm, rfl, rfl⟩
  · exact ⟨_, rest, decodeWord_setPaletteB h rest, h.symm, rfl, rfl⟩
  · exact ⟨_, rest, decodeWord_getPalettes h rest, h.symm, rfl, rfl⟩
  · exact ⟨_, rest, decodeWord_setBackground h rest, h.symm, rfl, rfl⟩
  · exact ⟨_, rest, decodeWord_setCamera h rest, h.symm, rfl, rfl⟩
  · exact ⟨_, rest, decodeWord_setClip h rest, h.symm, rfl, rfl⟩
  · exact ⟨_, rest, decodeWord_resetClip h rest, h.symm, rfl, rfl⟩
  · exact ⟨_, rest, decodeWord_drawRectBorder h rest, h.symm, rfl, rfl⟩
  · exact ⟨_, rest, decodeWord_fillRect h rest, h.symm, rfl, rfl⟩
  · exact ⟨_, rest, decodeWord_drawLine h rest, h.symm, rfl, rfl⟩
  · exact ⟨_, rest, decodeWord_clearScreen h rest, h.symm, rfl, rfl⟩
  · exact ⟨_, rest, decodeWord_advance h rest, h.symm, rfl, rfl⟩
  · exact ⟨_, rest, decodeWord_frames h rest, h.symm, rfl, rfl⟩
  · exact ⟨_, _, decodeWord_loadSpriteSheet h (hlen h), h.symm,
      by simpa [Instr.wf] using hlen h, List.take_append_drop _ rest⟩

end Sys2Proof

namespace Sys2Proof.Machine

/-- A constructed block finds on its port what the decoder reads there (R47, R93). -/
theorem fetch_of_constructed {s : State} (h : s.constructed = true) : fetch s = decode s.port := if_pos h

/-- The step on an illegal word: it leaves the port and is rejected (R251). -/
theorem step_illegal {s : State} {op : Byte} {rest : List Byte} (h : fetch s = .illegal op rest) :
    step s = .next (reject .illegalCommand { s with port := rest }) := by
  rw [step, h]

end Sys2Proof.Machine

/-- Settles O2: the decoder's case per operation code, and the step on an illegal word. -/
theorem wordsAreCommandsOrIllegal : Obligations.WordsAreCommandsOrIllegal := by
  unfold Obligations.WordsAreCommandsOrIllegal
  simp only [decode_wordBytes]
  refine ⟨fun w rest => decodeWord_command, fun w rest h => decodeWord_illegal h rest, ?rejected, by decide, rfl⟩
  case rejected =>
    intro w rest s hop hs hport
    have hfetch : fetch s = .illegal (fieldOp w) rest := by
      rw [fetch_of_constructed hs, hport, decode_wordBytes, decodeWord_illegal hop]
    exact step_illegal hfetch
end

section
/-! PROOF. Unused fields (30_encoding.md R101): the decoder looks at no bit outside `usedMask`, and the encoder sets
none. -/

open Sys2Proof Sys2Proof.Machine Sys2Proof.Claims

namespace Sys2Proof

/-! ## The decoder -/

/-- Words that agree under a mask agree in every field the mask covers. -/
theorem extractLsb'_eq_of_and_eq {w w' m : CommandWord} {k n : Nat} (h : w &&& m = w' &&& m)
    (hm : m.extractLsb' k n = BitVec.allOnes n) : w.extractLsb' k n = w'.extractLsb' k n := by
  have hfield := congrArg (BitVec.extractLsb' k n) h
  rwa [BitVec.extractLsb'_and, BitVec.extractLsb'_and, hm, BitVec.and_allOnes, BitVec.and_allOnes] at hfield

/-- Every command uses op (R95). -/
theorem fieldOp_usedMask (op : Byte) : fieldOp (usedMask op) = BitVec.allOnes 8 := by
  unfold usedMask
  split_ifs <;> decide

/-- Two words with one op that agree on the fields its format uses decode alike (R101). -/
theorem decodeWord_eq_of_usedFields_eq {op : Byte} {w w' : CommandWord} (h : fieldOp w = op) (h' : fieldOp w' = op)
    (hused : w &&& usedMask op = w' &&& usedMask op) (rest : List Byte) : decodeWord w rest = decodeWord w' rest := by
  have hA : fieldA (usedMask op) = BitVec.allOnes 16 → fieldA w = fieldA w' := extractLsb'_eq_of_and_eq hused
  have hB : fieldB (usedMask op) = BitVec.allOnes 16 → fieldB w = fieldB w' := extractLsb'_eq_of_and_eq hused
  have hC : fieldC (usedMask op) = BitVec.allOnes 16 → fieldC w = fieldC w' := extractLsb'_eq_of_and_eq hused
  have hD : fieldD (usedMask op) = BitVec.allOnes 16 → fieldD w = fieldD w' := extractLsb'_eq_of_and_eq hused
  have hK : fieldCol (usedMask op) = BitVec.allOnes 8 → fieldCol w = fieldCol w' := extractLsb'_eq_of_and_eq hused
  by_cases hop : op ∈ opcodes
  · rcases (mem_opcodes_iff op).1 hop with
      rfl | rfl | rfl | rfl | rfl | rfl | rfl | rfl | rfl | rfl | rfl | rfl | rfl | rfl | rfl | rfl
    · rw [decodeWord_setPixel h, decodeWord_setPixel h', hA rfl, hB rfl, hK rfl]
    · rw [decodeWord_getPixel h, decodeWord_getPixel h', hA rfl, hB rfl]
    · rw [decodeWord_setPaletteA h, decodeWord_setPaletteA h', hA rfl]
    · rw [decodeWord_setPaletteB h, decodeWord_setPaletteB h', hA rfl]
    · rw [decodeWord_getPalettes h, decodeWord_getPalettes h']
    · rw [decodeWord_setBackground h, decodeWord_setBackground h', hK rfl]
    · rw [decodeWord_setCamera h, decodeWord_setCamera h', hA rfl, hB rfl]
    · rw [decodeWord_setClip h, decodeWord_setClip h', hA rfl, hB rfl, hC rfl, hD rfl]
    · rw [decodeWord_resetClip h, decodeWord_resetClip h']
    · rw [decodeWord_drawRectBorder h, decodeWord_drawRectBorder h', hA rfl, hB rfl, hC rfl, hD rfl, hK rfl]
    · rw [decodeWord_fillRect h, decodeWord_fillRect h', hA rfl, hB rfl, hC rfl, hD rfl, hK rfl]
    · rw [decodeWord_drawLine h, decodeWord_drawLine h', hA rfl, hB rfl, hC rfl, hD rfl, hK rfl]
    · rw [decodeWord_clearScreen h, decodeWord_clearScreen h']
    · rw [decodeWord_advance h, decodeWord_advance h']
    · rw [decodeWord_frames h, decodeWord_frames h']
    · have hlen : fieldLen w = fieldLen w' := by rw [fieldLen, fieldLen, hC rfl, hD rfl]
      rcases Nat.lt_or_ge rest.length (fieldLen w').toNat with hshort | hwhole
      · rw [decodeWord_short h (by rwa [hlen]), decodeWord_short h' hshort]
      · rw [decodeWord_loadSpriteSheet h (by rwa [hlen]), decodeWord_loadSpriteSheet h' hwhole, hlen]
  · rw [decodeWord_illegal (h ▸ hop), decodeWord_illegal (h' ▸ hop), h, h']

/-! ## The encoder -/

/-- Two concatenations have no bit in common when their upper and their lower parts have none. -/
theorem append_and_append_eq_zero {n l : Nat} {x x' : BitVec n} {y y' : BitVec l} (hx : x &&& x' = 0)
    (hy : y = 0 ∨ y' = 0) : (x ++ y) &&& (x' ++ y') = 0 := by
  have hy' : y &&& y' = 0 := by rcases hy with rfl | rfl <;> simp
  rw [BitVec.and_append, hx, hy']
  exact BitVec.zero_append_zero

/-- A packed word has no bit in `m` when each operand field is zero or not in `m`, and op is not in `m`. -/
theorem packWord_and_eq_zero {op : Byte} {a b c d : Field} {col : Byte} {m : CommandWord}
    (hop : fieldOp m = 0) (ha : a = 0 ∨ fieldA m = 0) (hb : b = 0 ∨ fieldB m = 0) (hc : c = 0 ∨ fieldC m = 0)
    (hd : d = 0 ∨ fieldD m = 0) (hcol : col = 0 ∨ fieldCol m = 0) : packWord op a b c d col &&& m = 0 := by
  have hop' : op &&& fieldOp m = 0 := by rw [hop]; exact BitVec.and_zero
  rw [← packWord_fields m]
  exact append_and_append_eq_zero (append_and_append_eq_zero (append_and_append_eq_zero (append_and_append_eq_zero
    (append_and_append_eq_zero hop' ha) hb) hc) hd) hcol

/-- Each field of an encoded command is zero or used by the command's format (R95, R101). -/
theorem encodeWord_and_unused (i : Instr) : encodeWord i &&& ~~~ usedMask (opcode i) = 0 := by
  cases i <;> dsimp only [encodeWord, opcode]
  case setPixel => exact packWord_and_eq_zero rfl (.inr rfl) (.inr rfl) (.inl rfl) (.inl rfl) (.inr rfl)
  case getPixel | setCamera => exact packWord_and_eq_zero rfl (.inr rfl) (.inr rfl) (.inl rfl) (.inl rfl) (.inl rfl)
  case setPaletteA | setPaletteB =>
    exact packWord_and_eq_zero rfl (.inr rfl) (.inl rfl) (.inl rfl) (.inl rfl) (.inl rfl)
  case setBackground => exact packWord_and_eq_zero rfl (.inl rfl) (.inl rfl) (.inl rfl) (.inl rfl) (.inr rfl)
  case setClip => exact packWord_and_eq_zero rfl (.inr rfl) (.inr rfl) (.inr rfl) (.inr rfl) (.inl rfl)
  case drawRectBorder | fillRect | drawLine =>
    exact packWord_and_eq_zero rfl (.inr rfl) (.inr rfl) (.inr rfl) (.inr rfl) (.inr rfl)
  case loadSpriteSheet => exact packWord_and_eq_zero rfl (.inl rfl) (.inl rfl) (.inr rfl) (.inr rfl) (.inl rfl)
  case getPalettes | resetClip | clearScreen | advance | frames =>
    exact packWord_and_eq_zero rfl (.inl rfl) (.inl rfl) (.inl rfl) (.inl rfl) (.inl rfl)

end Sys2Proof

/-- Settles O3: op is used in every format, so the words have one op, and its decoder case reads used fields only. -/
theorem unusedFieldsAreIgnored : Obligations.UnusedFieldsAreIgnored := by
  unfold Obligations.UnusedFieldsAreIgnored
  refine ⟨?_, encodeWord_and_unused⟩
  intro w w' rest hused
  have hop : fieldOp w = fieldOp w' := extractLsb'_eq_of_and_eq hused (fieldOp_usedMask _)
  rw [decode_wordBytes, decode_wordBytes]
  exact decodeWord_eq_of_usedFields_eq rfl hop.symm hused rest
end

section
/-! PROOF. Reserved bits inside used fields (30_encoding.md R102): a command reads of its operand only the low bits its
format names, and answers OK whatever the others hold. -/

open Sys2Proof Sys2Proof.Machine Sys2Proof.Claims

namespace Sys2Proof.Machine

/-- Words that agree in their low `n` bits have the same bits in every range below bit `n`. -/
theorem extractLsb'_eq_of_mod_eq {v : Nat} {x y : BitVec v} (n : Nat) (h : x.toNat % 2 ^ n = y.toNat % 2 ^ n)
    {k len : Nat} (hk : k + len ≤ n) : x.extractLsb' k len = y.extractLsb' k len := by
  apply BitVec.eq_of_getLsbD_eq
  intro i hi
  have hbit := congrArg (Nat.testBit · (k + i)) h
  have hlow : k + i < n := by omega
  simpa [Nat.testBit_mod_two_pow, hlow, hi, BitVec.getLsbD_extractLsb', BitVec.getLsbD] using hbit

/-- Plot takes of the colour byte its bits 2:0 only (R90, R102). -/
theorem plot_eq_of_mod_eq {k k' : Byte} (h : k.toNat % 8 = k'.toNat % 8) (pb : Config.PalBase) (rx ry : Int)
    (m : Memory) : plot pb rx ry k m = plot pb rx ry k' m := by
  have hindex : colourIndex k = colourIndex k' := extractLsb'_eq_of_mod_eq 3 h (by decide)
  have hbank : colourBank k = colourBank k' := extractLsb'_eq_of_mod_eq 3 h (by decide)
  rw [plot, plot, plotBank, plotBank, plotIndex, plotIndex, hindex, hbank]

theorem plotAll_eq_of_mod_eq {k k' : Byte} (h : k.toNat % 8 = k'.toNat % 8) (pb : Config.PalBase)
    (ps : List (Int × Int)) (m : Memory) : plotAll pb k ps m = plotAll pb k' ps m := by
  simp only [plotAll, plot_eq_of_mod_eq h]

theorem execSetBackground_eq_of_mod_eq {k k' : Byte} (h : k.toNat % 8 = k'.toNat % 8) (s : State) :
    execSetBackground k s = execSetBackground k' s := by
  have hbits : colourBits k = colourBits k' := extractLsb'_eq_of_mod_eq 3 h (by decide)
  rw [execSetBackground, execSetBackground, hbits]

/-- A palette value is its low nibble (R96; D15). -/
theorem lowNibble_eq_of_mod_eq {v v' : Field} (h : v.toNat % 16 = v'.toNat % 16) : lowNibble v = lowNibble v' :=
  extractLsb'_eq_of_mod_eq 4 h (by decide)

/-- A clip value is its low byte (R96). -/
theorem lowByte_eq_of_mod_eq {f f' : Field} (h : f.toNat % 256 = f'.toNat % 256) : lowByte f = lowByte f' :=
  extractLsb'_eq_of_mod_eq 8 h (by decide)

/-- One more response and another memory is all that changes. -/
theorem answers_respond_setMem (s : State) (m : Memory) (st : Status) (data : BitVec 24) :
    Answers s (respond st data (s.setMem m)) st data :=
  ⟨rfl, rfl, rfl, rfl, rfl, rfl, rfl⟩

end Sys2Proof.Machine

/-- Settles O4: the pixel, palette and clip commands each read their operand through its low bits. -/
theorem reservedOperandBitsAreIgnored : Obligations.ReservedOperandBitsAreIgnored := by
  unfold Obligations.ReservedOperandBitsAreIgnored
  refine ⟨?colour, ?palette, ?clip, ?ok⟩
  case colour =>
    intro s x y w h k k' hk
    simp only [exec, execSetPixel, execDrawRectBorder, execFillRect, execDrawLine, plot_eq_of_mod_eq hk,
      plotAll_eq_of_mod_eq hk, execSetBackground_eq_of_mod_eq hk, and_self]
  case palette =>
    intro s v v' hv
    simp only [exec, execSetPaletteA, execSetPaletteB, lowNibble_eq_of_mod_eq hv, and_self]
  case clip =>
    intro s x y w h x' y' w' h' hx hy hw hh
    simp only [exec, execSetClip, lowByte_eq_of_mod_eq hx, lowByte_eq_of_mod_eq hy, lowByte_eq_of_mod_eq hw,
      lowByte_eq_of_mod_eq hh]
  case ok =>
    intro s x y w h k
    simp only [List.forall_mem_cons]
    refine ⟨?_, ?_, ?_, ?_, ?_, ?_, ?_, ?_, List.forall_mem_nil _⟩
    all_goals exact ⟨_, rfl, answers_respond_setMem s _ .ok 0⟩
end

section
/-! PROOF. The pixel commands (40_pixel_codec.md R121, R123): Peek is the pixel's colour as the statements read it off
the planes, and a plotted list of pixels is what setPixel, with a list of one, paints. -/

open Sys2Proof Sys2Proof.Machine Sys2Proof.Claims

namespace Sys2Proof.Claims

/-! ## The colour of a pixel as a number -/

theorem indexAt_eq_peekIndex (s : State) (x y : Nat) : indexAt s x y = (peekIndex x y s.mem).toNat := by
  have hslot : 4 ^ (x % 4) = 2 ^ (x % 4 * 2) := by rw [Nat.mul_comm, Nat.pow_mul]
  simp [indexAt, peekIndex, colourAddr, colourShift, hslot, BitVec.extractLsb'_toNat, Nat.shiftRight_eq_div_pow]

theorem bankAt_eq_peekBank (s : State) (x y : Nat) : bankAt s x y = (peekBank s.palBase x y s.mem).toNat := by
  simp [bankAt, peekBank, bankAddr, bankShift, BitVec.extractLsb'_toNat, Nat.shiftRight_eq_div_pow]

/-- The byte `index | (bank << 2)` as a number (R91). -/
theorem toNat_index_or_bank (index : BitVec 2) (bank : BitVec 1) :
    (index.setWidth 8 ||| (bank.setWidth 8 <<< 2) : Byte).toNat = index.toNat + 4 * bank.toNat := by
  revert index bank; decide

/-- The statements' colour of a pixel is what Peek reads (R122). -/
theorem colourAt_eq_peek (s : State) (x y : Nat) : colourAt s x y = (peek s.palBase x y s.mem).toNat := by
  rw [colourAt, indexAt_eq_peekIndex, bankAt_eq_peekBank, peek, toNat_index_or_bank]

/-- A pixel's colour has three bits (R91). -/
theorem colourAt_lt (s : State) (x y : Nat) : colourAt s x y < 8 := by
  have hindex : indexAt s x y < 4 := Nat.mod_lt _ (by decide)
  have hbank : bankAt s x y < 2 := Nat.mod_lt _ (by decide)
  unfold colourAt
  omega

/-- The colour bits of a colour byte as a number (R90). -/
theorem toNat_colourBits (col : Byte) : ((colourBits col).setWidth 8 : Byte).toNat = col.toNat % 8 := by
  simp [colourBits, BitVec.extractLsb'_toNat]
  omega

/-! ## Plotting in the terms of the statements -/

/-- Plot's bounds test on two operands is membership in the canvas of their signed values (R94, R120). -/
theorem inCanvas_sext16_iff (x y : Field) : inCanvas (sext16 x) (sext16 y) = true ↔ OnCanvas x.toInt y.toInt := by
  rw [sext16_eq_toInt, sext16_eq_toInt]
  exact inCanvas_iff

/-- Plot at two operands off the canvas does nothing (R121; D8). -/
theorem plot_of_not_onCanvas {x y : Field} (h : ¬ OnCanvas x.toInt y.toInt) (pb : Config.PalBase) (col : Byte)
    (m : Memory) : plot pb (sext16 x) (sext16 y) col m = m :=
  plot_off (Bool.eq_false_iff.2 (mt (inCanvas_sext16_iff x y).1 h))

/-- A command that plots a list of pixels paints exactly the canvas pixels of the list (R181). -/
theorem paints_plotAll {s : State} (hs : s.mem.wf = true) {ps : List (Int × Int)} {S : Int → Int → Prop}
    (hS : ∀ x y : Nat, x < 192 → y < 192 → (S x y ↔ ((x : Int), (y : Int)) ∈ ps)) (col : Byte) (st : Status)
    (data : BitVec 24) :
    Paints s (respond st data (s.setMem (plotAll s.palBase col ps s.mem))) S col := by
  refine ⟨⟨wf_plotAll hs, fun a ha => read_plotAll_outside hs ?outside⟩, fun x y hx hy => ?colour⟩
  case outside =>
    unfold InPlanes at ha
    constructor <;> omega
  case colour =>
    simp only [colourAt_eq_peek, respond_mem, respond_palBase, setMem_mem, setMem_palBase, peek_plotAll hs hx hy,
      hS x y hx hy]
    exact ⟨fun hin => by rw [if_pos hin, toNat_colourBits], fun hout => by rw [if_neg hout]⟩

/-- Plot at two operands writes the pixel's two bytes at most, and none off the canvas (R120). -/
theorem read_plot_of_not_mayWrite {pb : Config.PalBase} {m : Memory} (hm : m.wf = true) {x y : Field} {col : Byte}
    {a : Nat} (ha : ¬ MayWrite pb (.setPixel x y col) a) :
    (plot pb (sext16 x) (sext16 y) col m).read a = m.read a := by
  by_cases hon : OnCanvas x.toInt y.toInt
  · obtain ⟨hcolour, hbank⟩ :
        a ≠ colourAddr x.toInt.toNat y.toInt.toNat ∧ a ≠ bankAddr pb x.toInt.toNat y.toInt.toNat :=
      not_or.1 fun h => ha ⟨hon, h⟩
    rw [read_plot_on hm ((inCanvas_sext16_iff x y).2 hon), sext16_eq_toInt, sext16_eq_toInt, if_neg hcolour,
      if_neg hbank]
  · rw [plot_of_not_onCanvas hon]

end Sys2Proof.Claims

/-- Settles O25: Plot at the operands is the plotting of a list of one pixel. -/
theorem setPixelPaintsOnePixel : Obligations.SetPixelPaintsOnePixel := by
  unfold Obligations.SetPixelPaintsOnePixel
  refine ⟨?encoding, fun s x y col hs => ⟨_, rfl, answers_respond_setMem s _ .ok 0, ?paints, ?frame, ?off⟩⟩
  case encoding =>
    intro a b c d k rest
    rw [decode_wordBytes, decodeWord_setPixel (fieldOp_packWord ..), fieldA_packWord, fieldB_packWord,
      fieldCol_packWord]
  case paints =>
    refine paints_plotAll hs (ps := [(sext16 x, sext16 y)]) (fun rx ry _ _ => ?_) col .ok 0
    rw [List.mem_singleton, Prod.mk.injEq, sext16_eq_toInt, sext16_eq_toInt]
  case frame => exact ⟨wf_plot hs, fun _ => read_plot_of_not_mayWrite hs⟩
  case off => exact fun hoff => plot_of_not_onCanvas hoff s.palBase col s.mem

/-- Settles O26: on the canvas getPixel answers Peek, which is the pixel's colour; off it, it is rejected. -/
theorem getPixelAnswersTheColour : Obligations.GetPixelAnswersTheColour := by
  unfold Obligations.GetPixelAnswersTheColour
  refine ⟨?encoding, fun s x y => ⟨fun hon => ⟨?answer, colourAt_lt s _ _⟩, fun hoff => ?rejected⟩⟩
  case encoding =>
    intro a b c d k rest
    rw [decode_wordBytes, decodeWord_getPixel (fieldOp_packWord ..), fieldA_packWord, fieldB_packWord]
  case answer =>
    rw [colourAt_eq_peek, BitVec.ofNat_toNat, ← sext16_eq_toInt, ← sext16_eq_toInt]
    exact if_pos ((inCanvas_sext16_iff x y).2 hon)
  case rejected => exact if_neg (mt (inCanvas_sext16_iff x y).1 hoff)
end

section
/-! PROOF. The palette and background registers (41_palette_registers.md R140 to R143): a byte made of a high and a low
field, of which a command replaces one, and the write of a register of one byte. -/

open Sys2Proof Sys2Proof.Machine Sys2Proof.Claims

namespace Sys2Proof.Machine

/-! ## A byte as a high and a low field -/

/-- A byte put together from a high field and a low field of `k` bits, as a number. -/
theorem toNat_high_or_low {n k : Nat} (h : n + k ≤ 8) (hi : BitVec n) (lo : BitVec k) :
    ((hi.setWidth 8 <<< k) ||| lo.setWidth 8 : Byte).toNat = hi.toNat * 2 ^ k + lo.toNat := by
  have hfits : (hi ++ lo).toNat < 2 ^ 8 := (hi ++ lo).isLt.trans_le (Nat.pow_le_pow_right (by decide) h)
  rw [← BitVec.setWidth_append_eq_shiftLeft_setWidth_or, BitVec.toNat_setWidth, Nat.mod_eq_of_lt hfits,
    BitVec.toNat_append, ← Nat.shiftLeft_add_eq_or_of_lt lo.isLt, Nat.shiftLeft_eq]

/-- A mask of `k` ones keeps the low field of a byte. -/
theorem and_lowMask {k : Nat} (hk : k ≤ 8) (b : Byte) :
    b &&& BitVec.ofNat 8 (2 ^ k - 1) = (b.extractLsb' 0 k).setWidth 8 := by
  have hpos : 0 < 2 ^ k := Nat.two_pow_pos k
  have hmask : 2 ^ k ≤ 2 ^ 8 := Nat.pow_le_pow_right (by decide) hk
  have hlow : b.toNat % 2 ^ k < 2 ^ 8 := (Nat.mod_lt _ hpos).trans_le hmask
  apply BitVec.eq_of_toNat_eq
  rw [BitVec.toNat_and, BitVec.toNat_ofNat, Nat.mod_eq_of_lt (by omega), Nat.and_two_pow_sub_one_eq_mod,
    BitVec.toNat_setWidth, BitVec.extractLsb'_toNat, Nat.shiftRight_zero, Nat.mod_eq_of_lt hlow]

/-- The mask `0xF0` keeps the high nibble of a byte. -/
theorem and_highNibbleMask (b : Byte) : b &&& 0xF0#8 = (b.extractLsb' 4 4).setWidth 8 <<< 4 := by
  ext i hi
  interval_cases i <;> simp

/-- The high nibble of a byte as a number. -/
theorem toNat_highNibble (b : Byte) : (b.extractLsb' 4 4).toNat = b.toNat / 16 := by
  rw [BitVec.extractLsb'_toNat, Nat.shiftRight_eq_div_pow]
  omega

/-- The high field replaced, the low field of `k` bits kept. -/
theorem toNat_replaceHigh {n k : Nat} (h : n + k = 8) (b : Byte) (v : BitVec n) :
    ((b &&& BitVec.ofNat 8 (2 ^ k - 1)) ||| (v.setWidth 8 <<< k)).toNat = v.toNat * 2 ^ k + b.toNat % 2 ^ k := by
  rw [and_lowMask (by omega), BitVec.or_comm, toNat_high_or_low h.le, BitVec.extractLsb'_toNat, Nat.shiftRight_zero]

/-- The low nibble replaced, the high nibble kept. -/
theorem toNat_replaceLowNibble (b : Byte) (v : BitVec 4) :
    ((b &&& 0xF0#8) ||| v.setWidth 8).toNat = b.toNat / 16 * 16 + v.toNat := by
  rw [and_highNibbleMask, ← toNat_highNibble]
  exact toNat_high_or_low (by decide) (b.extractLsb' 4 4) v

/-- A palette value is its operand modulo 16 (R140, R141; D15). -/
theorem toNat_lowNibble (f : Field) : (lowNibble f).toNat = f.toNat % 16 := by
  rw [lowNibble, BitVec.extractLsb'_toNat, Nat.shiftRight_zero]

/-- The byte PAL is A and B (R28). -/
theorem State.toNat_pal (s : State) : s.pal.toNat = s.palA.toNat * 16 + s.palB.toNat := by
  rw [State.palA, State.palB, toNat_highNibble, BitVec.extractLsb'_toNat, Nat.shiftRight_zero]
  omega

/-! ## A register of one byte -/

/-- The byte a one-byte store leaves at its address. -/
theorem Memory.read_store_same {m : Memory} (hm : m.wf = true) {a : Nat} (ha : a < 0x10000) (b : Byte) :
    (m.store a [b]).read a = b := by
  rw [Memory.read_store_one ha hm, if_pos rfl]

/-- A command that stores one byte leaves every other byte alone. -/
theorem writesOnly_store_one {s : State} (hs : s.mem.wf = true) {a : Nat} (ha : a < 0x10000) (b : Byte) (st : Status)
    (data : BitVec 24) : WritesOnly s (respond st data (s.setMem (s.mem.store a [b]))) (· = a) :=
  ⟨Memory.wf_store ha hs, fun _ hx => (Memory.read_store_one ha hs).trans (if_neg hx)⟩

end Sys2Proof.Machine

namespace Sys2Proof.Claims

/-- The picture is the bytes of the two planes (R26, R27). -/
theorem samePicture_of_read_eq {s t : State} (hbase : t.palBase = s.palBase)
    (h : ∀ a, InPlanes s.palBase a → t.mem.read a = s.mem.read a) : SamePicture s t := by
  intro x y hx hy
  have hindex := h (colourAddr x y) (.inl (colourAddr_lt hx hy))
  have hbank := h (bankAddr s.palBase x y) (.inr (bankAddr_bounds s.palBase hx hy))
  rw [colourAddr] at hindex
  rw [bankAddr] at hbank
  rw [colourAt, colourAt, indexAt, indexAt, bankAt, bankAt, hbase, hindex, hbank]

/-- The planes end below the registers (R25), so a command that writes none of the bytes below PAL repaints nothing. -/
theorem samePicture_of_writesOnly {s t : State} {W : Nat → Prop} (hbase : t.palBase = s.palBase)
    (h : WritesOnly s t W) (hW : ∀ a, W a → 0x3601 ≤ a) : SamePicture s t := by
  obtain ⟨-, hread⟩ := h
  refine samePicture_of_read_eq hbase fun a ha => hread a fun hWa => ?_
  have hbound := palBaseAddr_le s.palBase
  have hregister := hW a hWa
  unfold InPlanes at ha
  omega

end Sys2Proof.Claims

/-- Settles O29: the store of PAL with its high nibble replaced by the operand's low nibble. -/
theorem setPaletteAWritesTheHighNibble : Obligations.SetPaletteAWritesTheHighNibble := by
  unfold Obligations.SetPaletteAWritesTheHighNibble
  refine ⟨?encoding, fun s v hs =>
    ⟨_, rfl, answers_respond_setMem s _ .ok 0, writesOnly_store_one hs (by decide) _ .ok 0, ?value⟩⟩
  case encoding =>
    intro a b c d k rest
    rw [decode_wordBytes, decodeWord_setPaletteA (fieldOp_packWord ..), fieldA_packWord]
  case value =>
    rw [respond_mem, setMem_mem, addrPal, Memory.read_store_same hs (by decide), ← toNat_lowNibble]
    exact toNat_replaceHigh (k := 4) rfl s.pal (lowNibble v)

/-- Settles O30: the store of PAL with its low nibble replaced by the operand's low nibble. -/
theorem setPaletteBWritesTheLowNibble : Obligations.SetPaletteBWritesTheLowNibble := by
  unfold Obligations.SetPaletteBWritesTheLowNibble
  refine ⟨?encoding, fun s v hs =>
    ⟨_, rfl, answers_respond_setMem s _ .ok 0, writesOnly_store_one hs (by decide) _ .ok 0, ?value⟩⟩
  case encoding =>
    intro a b c d k rest
    rw [decode_wordBytes, decodeWord_setPaletteB (fieldOp_packWord ..), fieldA_packWord]
  case value =>
    rw [respond_mem, setMem_mem, addrPal, Memory.read_store_same hs (by decide), ← toNat_lowNibble]
    exact toNat_replaceLowNibble s.pal (lowNibble v)

/-- Settles O32: the store of BG with its bits 7:5 replaced by the colour bits; BG lies outside the planes. -/
theorem setBackgroundWritesTheTopBits : Obligations.SetBackgroundWritesTheTopBits := by
  unfold Obligations.SetBackgroundWritesTheTopBits
  refine ⟨?encoding, fun s col hs =>
    ⟨_, rfl, answers_respond_setMem s _ .ok 0, writesOnly_store_one hs (by decide) _ .ok 0, ?value, ?picture⟩⟩
  case encoding =>
    intro a b c d k rest
    rw [decode_wordBytes, decodeWord_setBackground (fieldOp_packWord ..), fieldCol_packWord]
  case value =>
    have hcolour : (colourBits col).toNat = col.toNat % 8 := by
      rw [colourBits, BitVec.extractLsb'_toNat, Nat.shiftRight_zero]
    rw [respond_mem, setMem_mem, addrBg, Memory.read_store_same hs (by decide), ← hcolour]
    exact toNat_replaceHigh (k := 5) rfl s.bg (colourBits col)
  case picture =>
    exact samePicture_of_writesOnly rfl (writesOnly_store_one hs (by decide) _ .ok 0) fun a ha => ha ▸ by decide

/-- Settles O31: the answer is PAL in 24 bits, and PAL is A and B. -/
theorem getPalettesAnswersPal : Obligations.GetPalettesAnswersPal := by
  unfold Obligations.GetPalettesAnswersPal
  refine ⟨?encoding, fun s => ⟨?answer, s.toNat_pal⟩⟩
  case encoding =>
    intro a b c d k rest
    rw [decode_wordBytes, decodeWord_getPalettes (fieldOp_packWord ..)]
  case answer =>
    rw [BitVec.ofNat_toNat]
    rfl
end

section
/-! PROOF. The viewport registers (42_viewport.md R160 to R162): each command is one store of four bytes, which
leaves each byte at its own address and every other byte of M alone. -/

open Sys2Proof Sys2Proof.Machine Sys2Proof.Claims

namespace Sys2Proof.Machine

/-! ## A store of several bytes -/

/-- The byte a store leaves at each of its addresses. -/
theorem Memory.read_store_at {m : Memory} (hm : m.wf = true) {a : Nat} {bs : List Byte}
    (hb : a + bs.length ≤ 0x10000) {k : Nat} (hk : k < bs.length) : (m.store a bs).read (a + k) = bs[k] := by
  rw [Memory.read_store hb hm, if_pos (by omega), Nat.add_sub_cancel_left, List.getD_eq_getElem _ _ hk]

/-- The four bytes a store of four leaves. -/
theorem Memory.read_store_four {m : Memory} (hm : m.wf = true) {a : Nat} (ha : a + 4 ≤ 0x10000) (b₀ b₁ b₂ b₃ : Byte) :
    (m.store a [b₀, b₁, b₂, b₃]).read a = b₀ ∧ (m.store a [b₀, b₁, b₂, b₃]).read (a + 1) = b₁ ∧
      (m.store a [b₀, b₁, b₂, b₃]).read (a + 2) = b₂ ∧ (m.store a [b₀, b₁, b₂, b₃]).read (a + 3) = b₃ :=
  ⟨Memory.read_store_at hm ha (k := 0) (by simp), Memory.read_store_at hm ha (k := 1) (by simp),
    Memory.read_store_at hm ha (k := 2) (by simp), Memory.read_store_at hm ha (k := 3) (by simp)⟩

/-- A command that stores four bytes leaves every other byte alone. -/
theorem writesOnly_store_four {s : State} (hs : s.mem.wf = true) {a : Nat} (ha : a + 4 ≤ 0x10000)
    (b₀ b₁ b₂ b₃ : Byte) (st : Status) (data : BitVec 24) :
    WritesOnly s (respond st data (s.setMem (s.mem.store a [b₀, b₁, b₂, b₃]))) fun x => a ≤ x ∧ x ≤ a + 3 :=
  ⟨Memory.wf_store ha hs, fun _ hx => (Memory.read_store ha hs).trans (if_neg fun hin =>
    hx ⟨hin.1, Nat.le_of_lt_succ hin.2⟩)⟩

/-- Two stores, one right behind the other, are one. -/
theorem Memory.store_store_adjacent {m : Memory} (hm : m.wf = true) {a : Nat} {bs cs : List Byte}
    (hb : a + (bs ++ cs).length ≤ 0x10000) : (m.store a bs).store (a + bs.length) cs = m.store a (bs ++ cs) := by
  have hlen : (bs ++ cs).length = bs.length + cs.length := List.length_append
  have hfirst : (m.store a bs).wf = true := Memory.wf_store (by omega) hm
  refine Memory.ext_of_read (Memory.wf_store (by omega) hfirst) (Memory.wf_store hb hm) fun x => ?_
  rw [Memory.read_store (by omega) hfirst, Memory.read_store (by omega) hm, Memory.read_store hb hm]
  by_cases hlow : x < a + bs.length
  · rw [if_neg (by omega)]
    by_cases ha : a ≤ x
    · rw [if_pos ⟨ha, hlow⟩, if_pos (by omega), List.getD_append _ _ _ _ (by omega)]
    · rw [if_neg (by omega), if_neg (by omega)]
  · by_cases hhigh : x < a + (bs ++ cs).length
    · rw [if_pos (by omega), if_pos (by omega), List.getD_append_right _ _ _ _ (by omega), Nat.sub_sub]
    · rw [if_neg (by omega), if_neg (by omega), if_neg (by omega)]

/-! ## A field as bytes -/

/-- The two bytes MemWrite stores of a field, high byte first (R10, R60). -/
theorem bytesBE_two (f : Field) : bytesBE 2 f.toNat = [f.extractLsb' 8 8, f.extractLsb' 0 8] := rfl

/-- A field is its high byte and its low byte. -/
theorem toNat_of_bytes {f : Field} {hi lo : Byte} (hhi : hi = f.extractLsb' 8 8) (hlo : lo = f.extractLsb' 0 8) :
    hi.toNat * 256 + lo.toNat = f.toNat := by
  rw [hhi, hlo, BitVec.extractLsb'_toNat, BitVec.extractLsb'_toNat, Nat.shiftRight_eq_div_pow, Nat.shiftRight_zero]
  omega

/-- A clip value is its operand modulo 256 (R161). -/
theorem toNat_lowByte (f : Field) : (lowByte f).toNat = f.toNat % 256 := by
  rw [lowByte, BitVec.extractLsb'_toNat, Nat.shiftRight_zero]

/-- CAMX and CAMY are adjacent, so the two writes of setCamera are one store of four bytes (R160). -/
theorem memWrite_camera {m : Memory} (hm : m.wf = true) (x y : Field) :
    memWrite (memWrite m addrCamX 2 x.toNat) addrCamY 2 y.toNat =
      m.store addrCamX [x.extractLsb' 8 8, x.extractLsb' 0 8, y.extractLsb' 8 8, y.extractLsb' 0 8] := by
  rw [memWrite, memWrite, bytesBE_two, bytesBE_two]
  exact Memory.store_store_adjacent hm (a := addrCamX) (bs := [x.extractLsb' 8 8, x.extractLsb' 0 8])
    (by simp [addrCamX])

/-- The meaning of setCamera on a canonical memory. -/
theorem exec_setCamera {s : State} (hs : s.mem.wf = true) (x y : Field) :
    exec (.setCamera x y) s = .next (respond .ok 0 (s.setMem (s.mem.store addrCamX
      [x.extractLsb' 8 8, x.extractLsb' 0 8, y.extractLsb' 8 8, y.extractLsb' 0 8]))) := by
  rw [← memWrite_camera hs]
  rfl

end Sys2Proof.Machine

/-- Settles O33: the store of the operands' four bytes at CAMX; the camera lies outside the planes. -/
theorem setCameraStoresBothFields : Obligations.SetCameraStoresBothFields := by
  unfold Obligations.SetCameraStoresBothFields
  refine ⟨?encoding, fun s x y hs => ?effect⟩
  case encoding =>
    intro a b c d k rest
    rw [decode_wordBytes, decodeWord_setCamera (fieldOp_packWord ..), fieldA_packWord, fieldB_packWord]
  case effect =>
    obtain ⟨hxHigh, hxLow, hyHigh, hyLow⟩ := Memory.read_store_four hs (a := addrCamX) (by decide)
      (x.extractLsb' 8 8) (x.extractLsb' 0 8) (y.extractLsb' 8 8) (y.extractLsb' 0 8)
    have hframe := writesOnly_store_four hs (a := addrCamX) (by decide)
      (x.extractLsb' 8 8) (x.extractLsb' 0 8) (y.extractLsb' 8 8) (y.extractLsb' 0 8) .ok 0
    refine ⟨_, exec_setCamera hs x y, answers_respond_setMem s _ .ok 0, hframe, hxHigh, hxLow, hyHigh, hyLow,
      (State.camX_eq_bytes _).trans (toNat_of_bytes hxHigh hxLow),
      (State.camY_eq_bytes _).trans (toNat_of_bytes hyHigh hyLow),
      samePicture_of_writesOnly rfl hframe fun a ha => le_trans (by decide) ha.1⟩

/-- Settles O34: the store of the operands' low bytes at CLIPX. -/
theorem setClipStoresTheLowBytes : Obligations.SetClipStoresTheLowBytes := by
  unfold Obligations.SetClipStoresTheLowBytes
  refine ⟨?encoding, fun s x y w h hs => ⟨_, rfl, answers_respond_setMem s _ .ok 0,
    writesOnly_store_four hs (by decide) _ _ _ _ .ok 0, ?bytes⟩⟩
  case encoding =>
    intro a b c d k rest
    rw [decode_wordBytes, decodeWord_setClip (fieldOp_packWord ..), fieldA_packWord, fieldB_packWord,
      fieldC_packWord, fieldD_packWord]
  case bytes =>
    obtain ⟨hx, hy, hw, hh⟩ := Memory.read_store_four hs (a := addrClip) (by decide)
      (lowByte x) (lowByte y) (lowByte w) (lowByte h)
    rw [← toNat_lowByte, ← toNat_lowByte, ← toNat_lowByte, ← toNat_lowByte]
    exact ⟨congrArg BitVec.toNat hx, congrArg BitVec.toNat hy, congrArg BitVec.toNat hw, congrArg BitVec.toNat hh,
      rfl, rfl, rfl, rfl⟩

/-- Settles O35: the store of 0, 0, 192, 192 at CLIPX. -/
theorem resetClipStoresTheFullCanvas : Obligations.ResetClipStoresTheFullCanvas := by
  unfold Obligations.ResetClipStoresTheFullCanvas
  refine ⟨?encoding, fun s hs => ⟨_, rfl, answers_respond_setMem s _ .ok 0,
    writesOnly_store_four hs (by decide) _ _ _ _ .ok 0, Memory.read_store_four hs (by decide) _ _ _ _⟩⟩
  case encoding =>
    intro a b c d k rest
    rw [decode_wordBytes, decodeWord_resetClip (fieldOp_packWord ..)]
end

section
/-! PROOF. What a command reads (20_memory.md R71; 42_viewport.md R164): its answer depends on the bytes it consults and
on nothing else of M, and it makes of each byte of M something that depends on that byte alone. The clip bytes are among
the bytes no command consults. -/

open Sys2Proof Sys2Proof.Machine Sys2Proof.Claims

namespace Sys2Proof.Machine

/-! ## Two memories side by side -/

/-- Going from `m` to `n` and from `m'` to `n'`, the two memories still read alike wherever they did before. -/
def KeepsAgreement (m m' n n' : Memory) : Prop := ∀ a, m'.read a = m.read a → n'.read a = n.read a

theorem KeepsAgreement.refl (m m' : Memory) : KeepsAgreement m m' m m' := fun _ => id

theorem KeepsAgreement.trans {m m' n n' o o' : Memory} (h₁ : KeepsAgreement m m' n n')
    (h₂ : KeepsAgreement n n' o o') : KeepsAgreement m m' o o' := fun a ha => h₂ a (h₁ a ha)

section
variable {m m' : Memory} (hm : m.wf = true) (hm' : m'.wf = true)
include hm hm'

/-- The same bytes stored in both. -/
theorem keepsAgreement_store {a : Nat} {bs : List Byte} (hb : a + bs.length ≤ 0x10000) :
    KeepsAgreement m m' (m.store a bs) (m'.store a bs) := by
  intro x hx
  rw [Memory.read_store hb hm, Memory.read_store hb hm', hx]

/-- The same value written in both. -/
theorem keepsAgreement_memWrite {a n v : Nat} (hb : a + n ≤ 0x10000) :
    KeepsAgreement m m' (memWrite m a n v) (memWrite m' a n v) :=
  keepsAgreement_store hm hm' (by simpa using hb)

/-- One byte modified in place, in the same way in both. -/
theorem keepsAgreement_modify {a : Nat} (ha : a < 0x10000) (f : Byte → Byte) :
    KeepsAgreement m m' (m.store a [f (m.read a)]) (m'.store a [f (m'.read a)]) := by
  intro x hx
  rw [Memory.read_store_one ha hm, Memory.read_store_one ha hm']
  split
  · next hxa => rw [← hxa, hx]
  · exact hx

/-- The same pixel plotted in both (R120). -/
theorem keepsAgreement_plot (pb : Config.PalBase) (rx ry : Int) (col : Byte) :
    KeepsAgreement m m' (plot pb rx ry col m) (plot pb rx ry col m') := by
  intro x hx
  by_cases hin : inCanvas rx ry = true
  · rw [read_plot_on hm hin, read_plot_on hm' hin, hx]
  · rwa [plot_off (Bool.eq_false_iff.2 hin), plot_off (Bool.eq_false_iff.2 hin)]

/-- The same flat picture in both (R189). -/
theorem keepsAgreement_clearTo (pb : Config.PalBase) (index : BitVec 2) (bank : BitVec 1) :
    KeepsAgreement m m' (clearTo pb index bank m) (clearTo pb index bank m') := by
  intro x hx
  rw [read_clearTo hm, read_clearTo hm', hx]

end

/-- The same pixels plotted in both, one after the other. -/
theorem keepsAgreement_plotAll (pb : Config.PalBase) (col : Byte) (ps : List (Int × Int)) {m m' : Memory}
    (hm : m.wf = true) (hm' : m'.wf = true) : KeepsAgreement m m' (plotAll pb col ps m) (plotAll pb col ps m') := by
  induction ps generalizing m m' with
  | nil => exact .refl m m'
  | cons p ps ih => exact (keepsAgreement_plot hm hm' pb p.1 p.2 col).trans (ih (wf_plot hm) (wf_plot hm'))

/-! ## What a command takes from the bytes it consults -/

section
variable {s s' : State}

/-- The camera is the bytes 0x3603 to 0x3606 (R30, R31). -/
theorem State.camera_congr (h : ∀ a, 0x3603 ≤ a ∧ a ≤ 0x3606 → s'.mem.read a = s.mem.read a) :
    s'.camX = s.camX ∧ s'.camY = s.camY := by
  rw [State.camX_eq_bytes, State.camX_eq_bytes, State.camY_eq_bytes, State.camY_eq_bytes,
    h _ (by decide), h _ (by decide), h _ (by decide), h _ (by decide)]
  exact ⟨rfl, rfl⟩

/-- The same shape drawn in both, moved by the camera (R180). -/
theorem keepsAgreement_draw (hs : s.mem.wf = true) (hs' : s'.mem.wf = true) (hbase : s'.palBase = s.palBase)
    (h : ∀ a, 0x3603 ≤ a ∧ a ≤ 0x3606 → s'.mem.read a = s.mem.read a) (col : Byte)
    (shape : Int → Int → List (Int × Int)) :
    KeepsAgreement s.mem s'.mem (plotAll s.palBase col (shape s.camX s.camY) s.mem)
      (plotAll s'.palBase col (shape s'.camX s'.camY) s'.mem) := by
  obtain ⟨hx, hy⟩ := State.camera_congr h
  rw [hbase, hx, hy]
  exact keepsAgreement_plotAll s.palBase col (shape s.camX s.camY) hs hs'

/-- FRAMES is the bytes 0x3607 to 0x3609 (R32). -/
theorem State.frameCount_congr (h : ∀ a, 0x3607 ≤ a ∧ a ≤ 0x3609 → s'.mem.read a = s.mem.read a) :
    s'.frameCount = s.frameCount := by
  rw [State.frameCount_eq_bytes, State.frameCount_eq_bytes, h _ (by decide), h _ (by decide), h _ (by decide)]

end

/-- Peek reads the two bytes of its pixel (R122). -/
theorem peek_congr {pb : Config.PalBase} {x y : Nat} {m m' : Memory}
    (hindex : m'.read (colourAddr x y) = m.read (colourAddr x y))
    (hbank : m'.read (bankAddr pb x y) = m.read (bankAddr pb x y)) : peek pb x y m' = peek pb x y m := by
  rw [peek, peek, peekIndex, peekIndex, peekBank, peekBank, hindex, hbank]

/-- The read matrix, command by command (R71): on two memories that agree on the bytes a command consults, the command
gives the same response, and the memories it leaves agree wherever the two did before. -/
theorem exec_congr (i : Instr) {s s' : State} (hs : s.mem.wf = true) (hs' : s'.mem.wf = true)
    (hbase : s'.palBase = s.palBase) (hread : ∀ a, Consults s.palBase i a → s'.mem.read a = s.mem.read a) :
    ∃ st data n n', exec i s = .next (respond st data (s.setMem n)) ∧
      exec i s' = .next (respond st data (s'.setMem n')) ∧ KeepsAgreement s.mem s'.mem n n' := by
  cases i with
  | setPixel x y col =>
    exact ⟨.ok, 0, _, _, rfl, rfl, hbase ▸ keepsAgreement_plot hs hs' s'.palBase _ _ col⟩
  | getPixel x y =>
    by_cases hin : inCanvas (sext16 x) (sext16 y) = true
    · have hon := (inCanvas_sext16_iff x y).1 hin
      have hpeek : peek s'.palBase (sext16 x).toNat (sext16 y).toNat s'.mem =
          peek s.palBase (sext16 x).toNat (sext16 y).toNat s.mem := by
        rw [hbase, sext16_eq_toInt, sext16_eq_toInt]
        exact peek_congr (hread _ ⟨hon, .inl rfl⟩) (hread _ ⟨hon, .inr rfl⟩)
      exact ⟨.ok, _, s.mem, s'.mem, if_pos hin, hpeek ▸ if_pos hin, .refl _ _⟩
    · exact ⟨.outOfRange, 0, s.mem, s'.mem, if_neg hin, if_neg hin, .refl _ _⟩
  | setPaletteA v =>
    exact ⟨.ok, 0, _, _, rfl, rfl, keepsAgreement_modify hs hs' (by decide)
      fun b => (b &&& 0x0F#8) ||| ((lowNibble v).setWidth 8 <<< 4)⟩
  | setPaletteB v =>
    exact ⟨.ok, 0, _, _, rfl, rfl, keepsAgreement_modify hs hs' (by decide)
      fun b => (b &&& 0xF0#8) ||| (lowNibble v).setWidth 8⟩
  | getPalettes =>
    have hpal : s'.pal = s.pal := hread _ rfl
    exact ⟨.ok, _, s.mem, s'.mem, rfl, hpal ▸ rfl, .refl _ _⟩
  | setBackground col =>
    exact ⟨.ok, 0, _, _, rfl, rfl, keepsAgreement_modify hs hs' (by decide)
      fun b => (b &&& 0x1F#8) ||| ((colourBits col).setWidth 8 <<< 5)⟩
  | setCamera x y =>
    exact ⟨.ok, 0, _, _, rfl, rfl, (keepsAgreement_memWrite hs hs' (by decide)).trans
      (keepsAgreement_memWrite (wf_memWrite (by decide) hs) (wf_memWrite (by decide) hs') (by decide))⟩
  | setClip x y w h => exact ⟨.ok, 0, _, _, rfl, rfl, keepsAgreement_store hs hs' (by simp [addrClip])⟩
  | resetClip => exact ⟨.ok, 0, _, _, rfl, rfl, keepsAgreement_store hs hs' (by decide)⟩
  | drawRectBorder x y w h col =>
    exact ⟨.ok, 0, _, _, rfl, rfl, keepsAgreement_draw hs hs' hbase hread col fun cx cy =>
      borderPixels (sext16 x - cx) (sext16 y - cy) (sext16 w) (sext16 h)⟩
  | fillRect x y w h col =>
    exact ⟨.ok, 0, _, _, rfl, rfl, keepsAgreement_draw hs hs' hbase hread col fun cx cy =>
      rectPixels (sext16 x - cx) (sext16 y - cy) (sext16 w) (sext16 h)⟩
  | drawLine x1 y1 x2 y2 col =>
    exact ⟨.ok, 0, _, _, rfl, rfl, keepsAgreement_draw hs hs' hbase hread col fun cx cy =>
      linePixels (sext16 x1) (sext16 y1) (sext16 x2) (sext16 y2) cx cy⟩
  | clearScreen =>
    have hbg : s'.bg = s.bg := hread _ rfl
    refine ⟨.ok, 0, _, _, rfl, rfl, ?_⟩
    rw [hbase, State.bgColour, State.bgColour, hbg]
    exact keepsAgreement_clearTo hs hs' _ _ _
  | advance =>
    refine ⟨.ok, 0, _, _, rfl, rfl, ?_⟩
    rw [State.frameCount_congr hread]
    exact keepsAgreement_memWrite hs hs' (by decide)
  | frames =>
    have hframes : s'.frameCount = s.frameCount := State.frameCount_congr hread
    exact ⟨.ok, _, s.mem, s'.mem, rfl, hframes ▸ rfl, .refl _ _⟩
  | loadSpriteSheet len payload =>
    by_cases hlen : len.toNat ≠ spriteSheetSize
    · exact ⟨.badLength, 0, s.mem, s'.mem, if_pos hlen, if_pos hlen, .refl _ _⟩
    · refine ⟨.ok, 0, _, _, if_neg hlen, if_neg hlen, keepsAgreement_store hs hs' ?_⟩
      rw [List.length_take, addrUserSprites, spriteSheetSize]
      omega

end Sys2Proof.Machine

namespace Sys2Proof.Claims

/-- No command consults a clip byte: the planes end below them, and no register a command reads is among them (R164). -/
theorem not_clip_of_consults {pb : Config.PalBase} {i : Instr} {a : Nat} (h : Consults pb i a) :
    ¬ (0x360A ≤ a ∧ a ≤ 0x360D) := by
  cases i
  case getPixel x y =>
    obtain ⟨hon, ha⟩ := h
    have hbase := palBaseAddr_le pb
    unfold OnCanvas at hon
    omega
  case setPixel | setPaletteA | setPaletteB | setBackground | setCamera | setClip | resetClip | loadSpriteSheet =>
    exact h.elim
  case getPalettes | clearScreen | drawRectBorder | fillRect | drawLine | advance | frames =>
    unfold Consults at h
    omega

end Sys2Proof.Claims

/-- Settles O20: the two states agree on every byte a command consults, since no clip byte is one. -/
theorem clipRegistersAreInert : Obligations.ClipRegistersAreInert := by
  unfold Obligations.ClipRegistersAreInert
  intro i s s' hs hs' hbase hread
  obtain ⟨st, data, n, n', hexec, hexec', hkeep⟩ :=
    exec_congr i hs hs' hbase fun a ha => hread a (not_clip_of_consults ha)
  exact ⟨_, _, st, data, hexec, hexec', answers_respond_setMem s n st data, answers_respond_setMem s' n' st data,
    fun a ha => hkeep a (hread a ha)⟩
end

section
/-! PROOF. The drawing commands as loops of Plot (43_rasterizer.md R182, R184, R186): a meaning plots the pixels its
loop generates, less some that lie off the canvas, where Plot does nothing (R120). -/

open Sys2Proof Sys2Proof.Machine Sys2Proof.Claims

namespace Sys2Proof.Machine

/-! ## The integers of a loop -/

/-- The integers of a loop as `lo` plus each number of passes made before. -/
theorem forRange_eq_map (lo hi : Int) :
    forRange lo hi = (List.range (hi - lo + 1).toNat).map fun k : Nat => lo + (k : Int) := by
  simp [forRange, ← List.map_eq_flatMap, Function.comp_def]

theorem mem_forRange {lo hi v : Int} : v ∈ forRange lo hi ↔ lo ≤ v ∧ v ≤ hi := by
  simp only [forRange_eq_map, List.mem_map, List.mem_range]
  constructor
  · rintro ⟨k, hk, rfl⟩
    omega
  · intro hv
    exact ⟨(v - lo).toNat, by omega, by omega⟩

theorem pairwise_lt_forRange (lo hi : Int) : (forRange lo hi).Pairwise (· < ·) := by
  rw [forRange_eq_map]
  exact List.pairwise_lt_range.map _ fun k l hkl => by omega

theorem forRange_self (v : Int) : forRange v v = [v] := by
  simp [forRange_eq_map]

theorem length_forRange (lo hi : Int) : (forRange lo hi).length = (hi - lo + 1).toNat := by
  simp [forRange_eq_map]

/-- A loop of two passes or more is its first, the ones between, and its last. -/
theorem forRange_eq_ends {lo hi : Int} (h : lo < hi) : forRange lo hi = lo :: (forRange (lo + 1) (hi - 1) ++ [hi]) := by
  refine (pairwise_lt_forRange lo hi).eq_of_mem_iff ?_ fun v => ?_
  · rw [List.pairwise_cons, List.pairwise_append]
    refine ⟨fun v hv => ?_, pairwise_lt_forRange _ _, List.pairwise_singleton _ _, fun v hv u hu => ?_⟩
    · rw [List.mem_append, mem_forRange, List.mem_singleton] at hv
      omega
    · rw [mem_forRange] at hv
      rw [List.mem_singleton] at hu
      omega
  · rw [mem_forRange, List.mem_cons, List.mem_append, mem_forRange, List.mem_singleton]
    omega

/-! ## The coordinates on the canvas -/

/-- Is a raw coordinate one of the canvas, in its own axis? -/
def onAxis (r : Int) : Bool := decide (0 ≤ r ∧ r ≤ 191)

theorem inCanvas_eq_onAxis (rx ry : Int) : inCanvas rx ry = (onAxis rx && onAxis ry) := by
  simp [inCanvas, onAxis, Bool.and_assoc]

theorem mem_canvasSpan {start len r : Int} :
    r ∈ canvasSpan start len ↔ 0 ≤ r ∧ r ≤ 191 ∧ start ≤ r ∧ r < start + len := by
  simp only [canvasSpan, List.mem_filter, List.mem_map, List.mem_range, decide_eq_true_eq]
  constructor
  · rintro ⟨⟨k, hk, rfl⟩, hr⟩
    rw [Int.ofNat_eq_natCast] at hr ⊢
    omega
  · rintro ⟨h0, h191, hr⟩
    exact ⟨⟨r.toNat, by omega, Int.toNat_of_nonneg h0⟩, hr⟩

theorem pairwise_lt_canvasSpan (start len : Int) : (canvasSpan start len).Pairwise (· < ·) :=
  (List.pairwise_lt_range.map Int.ofNat fun _ _ => Int.ofNat_lt.2).filter _

/-- A run on the canvas is the canvas part of the loop from `lo` to `hi` that generates it, moved by `d`. -/
theorem canvasSpan_eq_loop {start len lo hi d : Int} {f : Int → Int} (hf : ∀ v, f v = v + d) (hstart : start = lo + d)
    (hlen : len = hi - lo + 1) : canvasSpan start len = ((forRange lo hi).map f).filter onAxis := by
  refine (pairwise_lt_canvasSpan start len).eq_of_mem_iff ?_ fun r => ?_
  · exact ((pairwise_lt_forRange lo hi).map f fun v w hvw => by rw [hf, hf]; omega).filter _
  · simp only [mem_canvasSpan, List.mem_filter, List.mem_map, mem_forRange, onAxis, decide_eq_true_eq, hf]
    constructor
    · intro hr
      exact ⟨⟨r - d, by omega, by omega⟩, by omega⟩
    · rintro ⟨⟨v, hv, rfl⟩, hr⟩
      omega

/-! ## Pixels left out -/

/-- Lists with the same canvas pixels in the same order plot alike. -/
theorem plotAll_congr_of_filter {ps qs : List (Int × Int)}
    (h : ps.filter (fun p => inCanvas p.1 p.2) = qs.filter fun p => inCanvas p.1 p.2) (pb : Config.PalBase) (col : Byte)
    (m : Memory) : plotAll pb col ps m = plotAll pb col qs m := by
  rw [← plotAll_filter pb col ps, h, plotAll_filter]

/-- A coordinate off its axis may be left out of the pixels made from a list of coordinates. -/
theorem plotAll_map_filter_onAxis {g : Int → Int × Int}
    (hg : ∀ r, inCanvas (g r).1 (g r).2 = true → onAxis r = true) (rs : List Int) (pb : Config.PalBase) (col : Byte)
    (m : Memory) : plotAll pb col ((rs.filter onAxis).map g) m = plotAll pb col (rs.map g) m := by
  refine plotAll_congr_of_filter ?_ pb col m
  rw [List.filter_map, List.filter_map, List.filter_filter]
  refine congrArg _ (List.filter_congr fun r _ => ?_)
  simpa using hg r

/-! ## The box and its border -/

/-- The canvas pixels of a product of two lists of coordinates. -/
theorem filter_inCanvas_product (xs ys : List Int) :
    (ys.flatMap fun ry => xs.map fun rx => (rx, ry)).filter (fun p => inCanvas p.1 p.2) =
      (ys.filter onAxis).flatMap fun ry => (xs.filter onAxis).map fun rx => (rx, ry) := by
  induction ys with
  | nil => rfl
  | cons ry ys ih =>
    rw [List.flatMap_cons, List.filter_append, ih, List.filter_cons, List.filter_map]
    cases hy : onAxis ry <;> simp [Function.comp_def, inCanvas_eq_onAxis, hy]

/-- fillLoop as a product of the columns and the rows it runs through. -/
theorem fillLoop_eq_product (x y w h cx cy : Int) :
    fillLoop x y w h cx cy =
      ((forRange 0 (h - 1)).map fun j => y + j - cy).flatMap fun ry =>
        ((forRange 0 (w - 1)).map fun i => x + i - cx).map fun rx => (rx, ry) := by
  simp [fillLoop, List.flatMap_map, Function.comp_def]

/-- The box is the canvas part of the loop of fillRect (R184). -/
theorem rectPixels_eq_filter_fillLoop (x y w h cx cy : Int) :
    rectPixels (x - cx) (y - cy) w h = (fillLoop x y w h cx cy).filter fun p => inCanvas p.1 p.2 := by
  rw [fillLoop_eq_product, filter_inCanvas_product, rectPixels,
    canvasSpan_eq_loop (lo := 0) (hi := w - 1) (d := x - cx) (f := fun i => x + i - cx) (fun _ => by omega) (by omega)
      (by omega),
    canvasSpan_eq_loop (lo := 0) (hi := h - 1) (d := y - cy) (f := fun j => y + j - cy) (fun _ => by omega) (by omega)
      (by omega)]

theorem mem_rectPixels {x y w h : Int} {p : Int × Int} :
    p ∈ rectPixels x y w h ↔ p.1 ∈ canvasSpan x w ∧ p.2 ∈ canvasSpan y h := by
  obtain ⟨rx, ry⟩ := p
  simp [rectPixels, and_comm]

/-- Is a pixel on the border of the box whose first raw corner is (x, y) (R185)? -/
def onBorder (x y w h : Int) (p : Int × Int) : Bool :=
  decide (p.1 = x ∨ p.1 = x + w - 1 ∨ p.2 = y ∨ p.2 = y + h - 1)

theorem borderPixels_eq_filter (x y w h : Int) :
    borderPixels x y w h = (rectPixels x y w h).filter (onBorder x y w h) := rfl

/-- The loop of drawRectBorder is that of fillRect with the inner pixels left out (R182). -/
theorem borderLoop_eq_filter_fillLoop (x y w h cx cy : Int) :
    borderLoop x y w h cx cy = (fillLoop x y w h cx cy).filter (onBorder (x - cx) (y - cy) w h) := by
  rw [borderLoop, fillLoop, List.filter_flatMap]
  refine List.flatMap_congr fun j _ => ?_
  rw [List.filter_map]
  refine congrArg _ (List.filter_congr fun i _ => ?_)
  simp only [onBorder, Function.comp_apply, decide_eq_decide]
  omega

/-- The border is the canvas part of the loop of drawRectBorder (R182). -/
theorem borderPixels_eq_filter_borderLoop (x y w h cx cy : Int) :
    borderPixels (x - cx) (y - cy) w h = (borderLoop x y w h cx cy).filter fun p => inCanvas p.1 p.2 := by
  rw [borderPixels_eq_filter, rectPixels_eq_filter_fillLoop, borderLoop_eq_filter_fillLoop, List.filter_comm]

/-- A row of the border's loop: the whole run in the first and the last row, the two ends in a row between (R182). -/
theorem length_borderRow {w : Int} (hw : 2 ≤ w) (h j : Int) :
    ((forRange 0 (w - 1)).filter fun i => decide (i = 0 ∨ i = w - 1 ∨ j = 0 ∨ j = h - 1)).length =
      if j = 0 ∨ j = h - 1 then w.toNat else 2 := by
  split
  · next hj =>
    rw [List.filter_eq_self.2 fun i _ => decide_eq_true (.inr (.inr hj)), length_forRange]
    omega
  · next hj =>
    have hinner : (forRange (0 + 1) (w - 1 - 1)).filter (fun i => decide (i = 0 ∨ i = w - 1 ∨ j = 0 ∨ j = h - 1)) =
        [] := by
      rw [List.filter_eq_nil_iff]
      intro i hi
      rw [mem_forRange] at hi
      rw [decide_eq_true_eq]
      omega
    rw [forRange_eq_ends (by omega), List.filter_cons_of_pos (by simp), List.filter_append, hinner]
    simp

/-- The border's count: two whole rows, and two pixels in each row between (R182). -/
theorem length_borderLoop (x y cx cy : Int) {w h : Int} (hw : 2 ≤ w) (hh : 2 ≤ h) :
    ((borderLoop x y w h cx cy).length : Int) = 2 * w + 2 * h - 4 := by
  have hinner : (forRange (0 + 1) (h - 1 - 1)).map (fun j => if j = 0 ∨ j = h - 1 then w.toNat else 2) =
      List.replicate (h - 2).toNat 2 := by
    rw [List.eq_replicate_iff, List.length_map, length_forRange]
    refine ⟨by omega, fun n hn => ?_⟩
    obtain ⟨j, hj, rfl⟩ := List.mem_map.1 hn
    rw [mem_forRange] at hj
    exact if_neg (by omega)
  simp only [borderLoop, List.length_flatMap, List.length_map, length_borderRow hw]
  rw [forRange_eq_ends (by omega), List.map_cons, List.map_append, hinner, if_pos (.inl rfl)]
  simp only [List.map_singleton, or_true, if_true, List.sum_cons, List.sum_append, List.sum_replicate, List.sum_nil,
    smul_eq_mul]
  omega

/-- A border no wider or no higher than 2 has no inner pixel (R183). -/
theorem borderPixels_eq_rectPixels {w h : Int} (hthin : w ≤ 2 ∨ h ≤ 2) (x y : Int) :
    borderPixels x y w h = rectPixels x y w h := by
  rw [borderPixels_eq_filter, List.filter_eq_self]
  intro p hp
  rw [mem_rectPixels, mem_canvasSpan, mem_canvasSpan] at hp
  simp only [onBorder, decide_eq_true_eq]
  omega

/-! ## The line -/

/-- A wide line plots what its loop does (R186). -/
theorem plotAll_widePixels (x1 y1 x2 y2 cx cy : Int) (pb : Config.PalBase) (col : Byte) (m : Memory) :
    plotAll pb col (widePixels x1 y1 x2 y2 cx cy) m = plotAll pb col (wideLoop x1 y1 x2 y2 cx cy) m := by
  rw [widePixels, canvasSpan_eq_loop (lo := x1) (hi := x2 - 1) (d := -cx) (f := fun x => x - cx) (fun _ => by omega)
    (by omega) (by omega), plotAll_map_filter_onAxis fun rx hin => ?column, List.map_map, wideLoop]
  case column =>
    rw [inCanvas_eq_onAxis, Bool.and_eq_true] at hin
    exact hin.1
  simp [Function.comp_def]

/-- A vertical line plots what its loop does (R186). -/
theorem plotAll_tallPixels (x y1 y2 cx cy : Int) (pb : Config.PalBase) (col : Byte) (m : Memory) :
    plotAll pb col (tallPixels x y1 y2 cx cy) m = plotAll pb col (tallLoop x y1 y2 cx cy) m := by
  rw [tallPixels, canvasSpan_eq_loop (lo := y1) (hi := y2 - 1) (d := -cy) (f := fun y => y - cy) (fun _ => by omega)
    (by omega) (by omega), plotAll_map_filter_onAxis fun ry hin => ?row, List.map_map, tallLoop]
  case row =>
    rw [inCanvas_eq_onAxis, Bool.and_eq_true] at hin
    exact hin.2
  rfl

/-- drawLine plots what its loop does, branch by branch (R186). -/
theorem plotAll_linePixels (x1 y1 x2 y2 cx cy : Int) (pb : Config.PalBase) (col : Byte) (m : Memory) :
    plotAll pb col (linePixels x1 y1 x2 y2 cx cy) m = plotAll pb col (lineLoop x1 y1 x2 y2 cx cy) m := by
  unfold linePixels lineLoop
  split_ifs
  · exact plotAll_widePixels ..
  · exact plotAll_widePixels ..
  · exact plotAll_tallPixels ..
  · exact plotAll_tallPixels ..

end Sys2Proof.Machine

/-- Settles O36: the box is the canvas part of the loop, and Plot does nothing for the rest. -/
theorem fillRectIsItsLoop : Obligations.FillRectIsItsLoop := by
  unfold Obligations.FillRectIsItsLoop
  refine ⟨?encoding, fun s x y w h col => ?meaning⟩
  case encoding =>
    intro a b c d k rest
    rw [decode_wordBytes, decodeWord_fillRect (fieldOp_packWord ..), fieldA_packWord, fieldB_packWord,
      fieldC_packWord, fieldD_packWord, fieldCol_packWord]
  case meaning =>
    rw [← plotAll_filter, ← rectPixels_eq_filter_fillLoop]
    simp only [← sext16_eq_toInt]
    rfl

/-- Settles O37: the border is the canvas part of its loop, and Plot does nothing for the rest. -/
theorem drawRectBorderIsItsLoop : Obligations.DrawRectBorderIsItsLoop := by
  unfold Obligations.DrawRectBorderIsItsLoop
  refine ⟨?encoding, fun s x y w h col => ?meaning, fun x y w h cx cy hw hh => ?count⟩
  case encoding =>
    intro a b c d k rest
    rw [decode_wordBytes, decodeWord_drawRectBorder (fieldOp_packWord ..), fieldA_packWord, fieldB_packWord,
      fieldC_packWord, fieldD_packWord, fieldCol_packWord]
  case meaning =>
    rw [← plotAll_filter, ← borderPixels_eq_filter_borderLoop]
    simp only [← sext16_eq_toInt]
    rfl
  case count => exact length_borderLoop x y cx cy (by omega) (by omega)

/-- Settles O38: branch by branch, the line's columns or rows are the canvas part of those its loop runs through. -/
theorem drawLineIsItsLoop : Obligations.DrawLineIsItsLoop := by
  unfold Obligations.DrawLineIsItsLoop
  refine ⟨?encoding, fun s x1 y1 x2 y2 col => ?meaning⟩
  case encoding =>
    intro a b c d k rest
    rw [decode_wordBytes, decodeWord_drawLine (fieldOp_packWord ..), fieldA_packWord, fieldB_packWord,
      fieldC_packWord, fieldD_packWord, fieldCol_packWord]
  case meaning =>
    rw [← plotAll_linePixels]
    simp only [← sext16_eq_toInt]
    rfl

/-- Settles O41: a thin border leaves out no pixel of its box, and a loop from 0 to 0 makes one pass. -/
theorem thinBordersAreFilledBoxes : Obligations.ThinBordersAreFilledBoxes := by
  unfold Obligations.ThinBordersAreFilledBoxes
  refine ⟨fun s x y w h col hthin => ?filled, fun x y cx cy h => ?vertical, fun x y cx cy w => ?horizontal⟩
  case filled =>
    rw [← sext16_eq_toInt, ← sext16_eq_toInt] at hthin
    simp only [exec, execDrawRectBorder, execFillRect, borderPixels_eq_rectPixels hthin]
  case vertical => simp [borderLoop, forRange_self, List.map_eq_flatMap]
  case horizontal => simp [borderLoop, forRange_self]
end

section
/-! PROOF. clearScreen (43_rasterizer.md R189): a plane filled with one byte shows one index, or one bank, at every
pixel. -/

open Sys2Proof Sys2Proof.Machine Sys2Proof.Claims

namespace Sys2Proof.Machine

/-! ## The background colour and the bytes made of it -/

/-- BGC is bits 7:5 of the byte BG (R29). -/
theorem State.toNat_bgColour (s : State) : s.bgColour.toNat = (s.mem.read 0x3602).toNat / 32 := by
  rw [State.bgColour, BitVec.extractLsb'_toNat, Nat.shiftRight_eq_div_pow, State.bg, addrBg]
  omega

/-- The index of the background colour (R90, R189). -/
theorem State.toNat_bgIndex (s : State) :
    (s.bgColour.extractLsb' 0 2).toNat = (s.mem.read 0x3602).toNat / 32 % 4 := by
  rw [BitVec.extractLsb'_toNat, Nat.shiftRight_zero, s.toNat_bgColour]

/-- The bank of the background colour (R90, R189). -/
theorem State.toNat_bgBank (s : State) : (s.bgColour.extractLsb' 2 1).toNat = (s.mem.read 0x3602).toNat / 128 := by
  rw [BitVec.extractLsb'_toNat, Nat.shiftRight_eq_div_pow, s.toNat_bgColour]
  omega

/-- The index in all four slots, as a number (R189). -/
theorem toNat_fillByte (index : BitVec 2) : (fillByte index).toNat = index.toNat * 0x55 := by
  revert index; decide

/-- The bank in all eight bits, as a number (R189). -/
theorem toNat_bankByte (bank : BitVec 1) : (if bank = 1 then 0xFF else 0x00 : Byte).toNat = bank.toNat * 0xFF := by
  revert bank; decide

/-! ## The two planes -/

section
variable {m : Memory} (hm : m.wf = true) (pb : Config.PalBase) (index : BitVec 2) (bank : BitVec 1) {a : Nat}
include hm

/-- What clearScreen leaves in the colour-index plane. -/
theorem toNat_read_clearTo_colourPlane (ha : a < 0x2400) :
    ((clearTo pb index bank m).read a).toNat = index.toNat * 0x55 := by
  have hbase := palBaseAddr_ge pb
  rw [read_clearTo hm, if_neg (by omega), if_pos ha, toNat_fillByte]

/-- What clearScreen leaves in the palette-select plane. -/
theorem toNat_read_clearTo_palettePlane (ha : palBaseAddr pb ≤ a ∧ a < palBaseAddr pb + 0x1200) :
    ((clearTo pb index bank m).read a).toNat = bank.toNat * 0xFF := by
  rw [read_clearTo hm, if_pos ha, toNat_bankByte]

/-- clearScreen leaves every byte outside the planes alone. -/
theorem read_clearTo_outside (ha : ¬ InPlanes pb a) : (clearTo pb index bank m).read a = m.read a := by
  unfold InPlanes at ha
  rw [read_clearTo hm, if_neg (by omega), if_neg (by omega)]

end

end Sys2Proof.Machine

namespace Sys2Proof.Claims

/-- Every slot of a byte with one index in all four slots holds that index. -/
theorem slot_of_flat {k v : Nat} (hk : k < 4) (hv : v < 4) : v * 0x55 / 4 ^ k % 4 = v := by
  interval_cases v <;> interval_cases k <;> rfl

/-- Every bit of a byte with one bank in all eight bits is that bank. -/
theorem bit_of_flat {k v : Nat} (hk : k < 8) (hv : v < 2) : v * 0xFF / 2 ^ k % 2 = v := by
  interval_cases v <;> interval_cases k <;> rfl

/-- What getPixel answers at a canvas pixel, from O26 (R123). -/
theorem exec_getPixel_of_onCanvas (s : State) {x y : Field} (hon : OnCanvas x.toInt y.toInt) :
    exec (.getPixel x y) s = .next { s with responses := s.responses ++
      [⟨.ok, BitVec.ofNat 24 (colourAt s x.toInt.toNat y.toInt.toNat)⟩] } := by
  obtain ⟨-, hget⟩ := getPixelAnswersTheColour
  obtain ⟨hanswer, -⟩ := hget s x y
  obtain ⟨hexec, -⟩ := hanswer hon
  exact hexec

/-- A cleared screen shows one colour at every canvas pixel. -/
theorem colourAt_clearTo {s : State} (hs : s.mem.wf = true) (index : BitVec 2) (bank : BitVec 1) {x y : Nat}
    (hx : x < 192) (hy : y < 192) (st : Status) (data : BitVec 24) :
    colourAt (respond st data (s.setMem (clearTo s.palBase index bank s.mem))) x y = index.toNat + 4 * bank.toNat := by
  have hslots := toNat_read_clearTo_colourPlane hs s.palBase index bank (colourAddr_lt hx hy)
  have hbits := toNat_read_clearTo_palettePlane hs s.palBase index bank (bankAddr_bounds s.palBase hx hy)
  rw [colourAddr] at hslots
  rw [bankAddr] at hbits
  rw [colourAt, indexAt, bankAt, respond_mem, respond_palBase, setMem_mem, setMem_palBase, hslots, hbits,
    slot_of_flat (Nat.mod_lt _ (by decide)) index.isLt, bit_of_flat (Nat.mod_lt _ (by decide)) bank.isLt]

end Sys2Proof.Claims

/-- Settles O45: each plane is filled with one byte made of BGC, so every canvas pixel has the colour BGC, and getPixel
answers a pixel's colour. -/
theorem clearScreenFillsBothPlanes : Obligations.ClearScreenFillsBothPlanes := by
  unfold Obligations.ClearScreenFillsBothPlanes
  refine ⟨?encoding, fun s hs => ⟨_, rfl, answers_respond_setMem s _ .ok 0,
    ⟨wf_clearTo hs, fun a => read_clearTo_outside hs s.palBase _ _⟩, fun a ha => ?colour, fun a hlo hhi => ?bank,
    fun x y hon => ?getPixel⟩⟩
  case encoding =>
    intro a b c d k rest
    rw [decode_wordBytes, decodeWord_clearScreen (fieldOp_packWord ..)]
  case colour =>
    rw [← s.toNat_bgIndex]
    exact toNat_read_clearTo_colourPlane hs s.palBase _ _ ha
  case bank =>
    rw [← s.toNat_bgBank]
    exact toNat_read_clearTo_palettePlane hs s.palBase _ _ ⟨hlo, hhi⟩
  case getPixel =>
    obtain ⟨hx, hy⟩ := inCanvas_toNat (inCanvas_iff.2 hon)
    have hcolour : s.bgColour.toNat = (s.bgColour.extractLsb' 0 2).toNat + 4 * (s.bgColour.extractLsb' 2 1).toNat := by
      rw [s.toNat_bgIndex, s.toNat_bgBank, s.toNat_bgColour]
      omega
    refine ⟨_, exec_getPixel_of_onCanvas _ hon, ?_⟩
    rw [colourAt_clearTo hs _ _ hx hy, ← hcolour, s.toNat_bgColour]
end

section
/-! PROOF. The frame clock (44_frame_clock.md R220 to R222): the write matrix of 20_memory.md R70, over a command and over
a step, has FRAMES in the row of advance and in the rows of construction and destruction and in no other. -/

open Sys2Proof Sys2Proof.Machine Sys2Proof.Claims

namespace Sys2Proof.Machine

/-! ## FRAMES as a number -/

/-- FRAMES has 24 bits (R32). -/
theorem State.frameCount_lt (s : State) : s.frameCount < 2 ^ 24 := by
  rw [State.frameCount_eq_bytes]
  omega

/-- What MemWrite stores in three bytes, MemRead reads back, if it fits (R10, R60). -/
theorem memRead_memWrite_three {m : Memory} (hm : m.wf = true) {a v : Nat} (ha : a + 3 ≤ 0x10000) (hv : v < 2 ^ 24) :
    memRead (memWrite m a 3 v) a 3 = v := by
  rw [memRead_three, read_memWrite ha hm, read_memWrite ha hm, read_memWrite ha hm, if_pos (by omega),
    if_pos (by omega), if_pos (by omega), Nat.sub_self, Nat.add_sub_cancel_left, Nat.add_sub_cancel_left]
  simp only [BitVec.toNat_ofNat, Nat.shiftRight_eq_div_pow]
  omega

/-- The counter after an advance (R220). -/
theorem frameCount_of_exec_advance {s t : State} (hs : s.mem.wf = true) (h : exec .advance s = .next t) :
    t.frameCount = (s.frameCount + 1) % 2 ^ 24 := by
  cases h
  exact memRead_memWrite_three hs (by decide) (Nat.mod_lt _ (by decide))

end Sys2Proof.Machine

namespace Sys2Proof.Claims

/-! ## The write matrix over a command -/

theorem writesOnly_of_mem_eq {s t : State} (hs : s.mem.wf = true) (h : t.mem = s.mem) (W : Nat → Prop) :
    WritesOnly s t W :=
  ⟨h ▸ hs, fun _ _ => h ▸ rfl⟩

/-- A store inside M writes only its own bytes (R10). -/
theorem writesOnly_store {s t : State} (hs : s.mem.wf = true) {a : Nat} {bs : List Byte} {W : Nat → Prop}
    (ht : t.mem = s.mem.store a bs) (hb : a + bs.length ≤ 0x10000) (hW : ∀ x, a ≤ x → x < a + bs.length → W x) :
    WritesOnly s t W := by
  refine ⟨ht ▸ Memory.wf_store hb hs, fun x hx => ?_⟩
  rw [ht, Memory.read_store hb hs, if_neg fun ⟨hlo, hhi⟩ => hx (hW x hlo hhi)]

/-- A drawing command writes only the planes (R181). -/
theorem writesOnly_plotAll {s : State} (hs : s.mem.wf = true) (col : Byte) (ps : List (Int × Int)) :
    WritesOnly s (respond .ok 0 (s.setMem (plotAll s.palBase col ps s.mem))) (InPlanes s.palBase) := by
  obtain ⟨hframe, -⟩ := paints_plotAll hs (S := fun x y => (x, y) ∈ ps) (fun _ _ _ _ => .rfl) col .ok 0
  exact hframe

/-- The write matrix, command by command (R70). -/
theorem exec_writesOnly (i : Instr) {s : State} (hs : s.mem.wf = true) :
    ∃ t, exec i s = .next t ∧ WritesOnly s t (MayWrite s.palBase i) := by
  cases i with
  | setPixel x y col => exact ⟨_, rfl, wf_plot hs, fun _ => read_plot_of_not_mayWrite hs⟩
  | getPixel x y =>
    by_cases hin : inCanvas (sext16 x) (sext16 y) = true
    · exact ⟨_, if_pos hin, writesOnly_of_mem_eq hs rfl _⟩
    · exact ⟨_, if_neg hin, writesOnly_of_mem_eq hs rfl _⟩
  | setPaletteA v => exact ⟨_, rfl, writesOnly_store_one hs (by decide) _ .ok 0⟩
  | setPaletteB v => exact ⟨_, rfl, writesOnly_store_one hs (by decide) _ .ok 0⟩
  | getPalettes => exact ⟨_, rfl, writesOnly_of_mem_eq hs rfl _⟩
  | setBackground col => exact ⟨_, rfl, writesOnly_store_one hs (by decide) _ .ok 0⟩
  | setCamera x y => exact ⟨_, exec_setCamera hs x y, writesOnly_store_four hs (by decide) _ _ _ _ .ok 0⟩
  | setClip x y w h => exact ⟨_, rfl, writesOnly_store_four hs (by decide) _ _ _ _ .ok 0⟩
  | resetClip => exact ⟨_, rfl, writesOnly_store_four hs (by decide) _ _ _ _ .ok 0⟩
  | drawRectBorder x y w h col => exact ⟨_, rfl, writesOnly_plotAll hs col _⟩
  | fillRect x y w h col => exact ⟨_, rfl, writesOnly_plotAll hs col _⟩
  | drawLine x1 y1 x2 y2 col => exact ⟨_, rfl, writesOnly_plotAll hs col _⟩
  | clearScreen => exact ⟨_, rfl, wf_clearTo hs, fun _ => read_clearTo_outside hs s.palBase _ _⟩
  | advance =>
    refine ⟨_, rfl, writesOnly_store hs rfl (by simp [addrFrames]) fun x hlo hhi => ?_⟩
    rw [bytesBE_length] at hhi
    exact ⟨hlo, Nat.le_of_lt_succ hhi⟩
  | frames => exact ⟨_, rfl, writesOnly_of_mem_eq hs rfl _⟩
  | loadSpriteSheet len payload =>
    by_cases hlen : len.toNat ≠ spriteSheetSize
    · exact ⟨_, if_pos hlen, writesOnly_of_mem_eq hs rfl _⟩
    · have htake : (payload.take spriteSheetSize).length ≤ 0x3000 := List.length_take_le _ _
      have hfirst : addrUserSprites = 0x3F49 := rfl
      refine ⟨_, if_neg hlen, writesOnly_store hs rfl (by omega) fun x hlo hhi => ⟨?len, ?region⟩⟩
      case len => exact BitVec.eq_of_toNat_eq (not_not.1 hlen)
      case region => omega

/-! ## The write matrix over a step -/

section
variable {s t : State}

theorem stepMayWrite_of_instr {i : Instr} {rest : List Byte} (h : fetch s = .instr i rest) :
    StepMayWrite s = MayWrite s.palBase i := by
  funext a
  rw [StepMayWrite, h]

/-- What the host's act writes is in its row (R70). -/
theorem hostAct_writesOnly (hs : s.mem.wf = true) (hfetch : fetch s = .incomplete) {m : HostMove}
    {later : List HostMove} (hmoves : s.moves = m :: later) :
    WritesOnly s (hostAct m { s with moves := later }) (StepMayWrite s) := by
  cases m with
  | issue bytes => exact writesOnly_of_mem_eq hs rfl _
  | startTick => exact writesOnly_of_mem_eq hs rfl _
  | publish => exact writesOnly_of_mem_eq hs rfl _
  | sampleInput input =>
    have hrow : ∀ x, 0x360E ≤ x → x < 0x360E + 58 → StepMayWrite s x := fun x hlo hhi => by
      rw [StepMayWrite, hfetch, hmoves]
      exact ⟨hlo, Nat.le_of_lt_succ hhi⟩
    exact writesOnly_store hs (sampleInput_mem input _) (by simp [addrInput]) (by simpa [addrInput] using hrow)
  | construct => exact ⟨rfl, fun a ha => absurd (by rw [StepMayWrite, hfetch, hmoves]; trivial) ha⟩
  | destroy => exact ⟨rfl, fun a ha => absurd (by rw [StepMayWrite, hfetch, hmoves]; trivial) ha⟩

/-- The write matrix over one step (R70). -/
theorem step_writesOnly (hs : s.mem.wf = true) (hstep : step s = .next t) : WritesOnly s t (StepMayWrite s) := by
  rcases step_cases s with ⟨i, rest, hfetch, heq⟩ | ⟨op, rest, -, heq⟩ | ⟨hfetch, heq⟩
  · obtain ⟨u, hexec, hwrites⟩ := exec_writesOnly i (s := { s with port := rest }) hs
    obtain rfl : u = t := Host.Outcome.next.inj (hexec.symm.trans (heq.symm.trans hstep))
    rw [stepMayWrite_of_instr hfetch]
    exact hwrites
  · cases heq.symm.trans hstep
    exact writesOnly_of_mem_eq hs rfl _
  · rcases hostTurn_cases (heq.symm.trans hstep) with ⟨-, rfl⟩ | ⟨m, later, hmoves, -, rfl⟩
    · exact writesOnly_of_mem_eq hs rfl _
    · exact hostAct_writesOnly hs hfetch hmoves

/-! ## The rows that hold FRAMES -/

/-- FRAMES is in the row of advance and of no other command (R222). -/
theorem eq_advance_of_mayWrite_frames {pb : Config.PalBase} {i : Instr} {a : Nat} (h : MayWrite pb i a)
    (ha : 0x3607 ≤ a ∧ a ≤ 0x3609) : i = .advance := by
  have hbase := palBaseAddr_le pb
  cases i
  case advance => rfl
  case getPixel | getPalettes | frames => exact h.elim
  case setPixel x y col =>
    obtain ⟨hon, hpixel⟩ := h
    unfold OnCanvas at hon
    omega
  case drawRectBorder | fillRect | drawLine | clearScreen =>
    unfold MayWrite InPlanes at h
    omega
  case setPaletteA | setPaletteB | setBackground | setCamera | setClip | resetClip | loadSpriteSheet =>
    unfold MayWrite at h
    omega

/-- FRAMES is in the row of a step that executes advance, of construction and of destruction (R45, R222). -/
theorem advances_or_rebuilds_of_stepMayWrite_frames {a : Nat} (h : StepMayWrite s a)
    (ha : 0x3607 ≤ a ∧ a ≤ 0x3609) : (∃ rest, fetch s = .instr .advance rest) ∨ HostRebuilds s := by
  cases hfetch : fetch s with
  | instr i rest =>
    rw [stepMayWrite_of_instr hfetch] at h
    exact .inl ⟨rest, by rw [eq_advance_of_mayWrite_frames h ha]⟩
  | illegal op rest =>
    rw [StepMayWrite, hfetch] at h
    exact h.elim
  | incomplete =>
    rw [StepMayWrite, hfetch] at h
    cases hmoves : s.moves with
    | nil =>
      rw [hmoves] at h
      exact h.elim
    | cons m later =>
      rw [hmoves] at h
      cases m with
      | construct => exact .inr ⟨hfetch, .inl (by rw [hmoves]; rfl)⟩
      | destroy => exact .inr ⟨hfetch, .inr (by rw [hmoves]; rfl)⟩
      | sampleInput input =>
        have hinput : 0x360E ≤ a ∧ a ≤ 0x3647 := h
        omega
      | issue | startTick | publish => exact h.elim

end

end Sys2Proof.Claims

/-- Settles O21: an advance writes the counter's successor, and any other step leaves the three bytes of FRAMES alone by
the write matrix. -/
theorem framesMovesOnlyByAdvance : Obligations.FramesMovesOnlyByAdvance := by
  unfold Obligations.FramesMovesOnlyByAdvance
  refine fun s t hs hstep => ⟨fun rest hfetch => ?advance, fun hother hkept => ?others⟩
  case advance =>
    have hexec : step s = exec .advance { s with port := rest } := by rw [step, hfetch]
    exact frameCount_of_exec_advance (s := { s with port := rest }) hs (hexec.symm.trans hstep)
  case others =>
    obtain ⟨-, hread⟩ := step_writesOnly hs hstep
    refine State.frameCount_congr fun a ha => hread a fun hrow => ?_
    rcases advances_or_rebuilds_of_stepMayWrite_frames hrow ha with ⟨rest, hfetch⟩ | hrebuilds
    · exact hother rest hfetch
    · exact hkept hrebuilds

/-- Settles O49: FRAMES has 24 bits, so the answer's data is its value. -/
theorem framesAnswersTheCounter : Obligations.FramesAnswersTheCounter := by
  unfold Obligations.FramesAnswersTheCounter
  refine ⟨?encoding, fun s => ⟨BitVec.ofNat 24 s.frameCount, ?value, rfl⟩⟩
  case encoding =>
    intro a b c d k rest
    rw [decode_wordBytes, decodeWord_frames (fieldOp_packWord ..)]
  case value => rw [BitVec.toNat_ofNat, Nat.mod_eq_of_lt s.frameCount_lt]
end

section
/-! PROOF. The bulk load of the user sprite sheet (45_host_interface.md R230, 60_exceptions.md R252): the payload leaves
the port with its word, and only a LEN of 0x3000 stores it. -/

open Sys2Proof Sys2Proof.Machine Sys2Proof.Claims

namespace Sys2Proof

/-- A load word takes the payload it announces and leaves what is behind it (R103). -/
theorem decodeWord_payload_append {w : CommandWord} (h : fieldOp w = 0x60) {payload : List Byte}
    (hlen : payload.length = (fieldLen w).toNat) (rest : List Byte) :
    decodeWord w (payload ++ rest) = .instr (.loadSpriteSheet (fieldLen w) payload) rest := by
  rw [decodeWord_loadSpriteSheet h (by rw [List.length_append]; omega), List.take_left' hlen, List.drop_left' hlen]

end Sys2Proof

namespace Sys2Proof.Machine

/-- A load of 0x3000 bytes is one store of its payload (R230). -/
theorem exec_loadSpriteSheet_ok (s : State) {payload : List Byte} (hlen : payload.length = 0x3000) :
    exec (.loadSpriteSheet 0x3000 payload) s = .next (respond .ok 0 (s.setMem (s.mem.store 0x3F49 payload))) := by
  have hsize : ¬ (0x3000 : BitVec 32).toNat ≠ spriteSheetSize := by decide
  have htake : payload.take spriteSheetSize = payload := List.take_of_length_le (Nat.le_of_eq hlen)
  show execLoadSpriteSheet 0x3000 payload s = _
  rw [execLoadSpriteSheet, if_neg hsize, htake, addrUserSprites]

/-- A load of any other length is rejected (R252). -/
theorem exec_loadSpriteSheet_badLength (s : State) {len : BitVec 32} (hlen : len ≠ 0x3000) (payload : List Byte) :
    exec (.loadSpriteSheet len payload) s = .next (reject .badLength s) :=
  if_pos fun hsize => hlen (BitVec.eq_of_toNat_eq hsize)

end Sys2Proof.Machine

/-- Settles O50: the word takes its payload off the port, the store law gives the copied bytes, and another length is
rejected. -/
theorem loadCopiesThePayloadOrRejects : Obligations.LoadCopiesThePayloadOrRejects := by
  unfold Obligations.LoadCopiesThePayloadOrRejects
  refine ⟨?framing, fun s payload hs hlen => ?copies, fun s len payload hlen => ?rejects⟩
  case framing =>
    intro a b c d k payload rest hlen
    rw [decode_wordBytes, decodeWord_payload_append (fieldOp_packWord ..) (by rw [hlen, fieldLen_packWord]),
      fieldLen_packWord]
  case copies =>
    have hfits : 0x3F49 + payload.length ≤ 0x10000 := by omega
    refine ⟨_, exec_loadSpriteSheet_ok s hlen, answers_respond_setMem s _ .ok 0,
      writesOnly_store hs rfl hfits fun a hlo hhi => ⟨hlo, by omega⟩, fun k hk => ?byte⟩
    case byte =>
      have hk' : k < payload.length := by omega
      rw [respond_mem, setMem_mem, Memory.read_store_at hs hfits hk', List.getElem?_eq_getElem hk']
  case rejects => exact exec_loadSpriteSheet_badLength s hlen payload
end

section
/-! PROOF. The rejections (60_exceptions.md R250 to R253, R257): a load of another length and a getPixel off the canvas
are rejected, every other command answers OK, and no rejection touches M. -/

open Sys2Proof Sys2Proof.Machine Sys2Proof.Claims

namespace Sys2Proof.Claims

/-- A load that R252 rejects. -/
def LoadsBadLength (i : Instr) : Prop := ∃ len payload, i = .loadSpriteSheet len payload ∧ len ≠ 0x3000

/-- A getPixel that R253 rejects. -/
def GetsOffCanvas (i : Instr) : Prop := ∃ x y, i = .getPixel x y ∧ ¬ OnCanvas x.toInt y.toInt

theorem not_getsOffCanvas_loadSpriteSheet (len : BitVec 32) (payload : List Byte) :
    ¬ GetsOffCanvas (.loadSpriteSheet len payload) := fun ⟨_, _, h, _⟩ => nomatch h

theorem not_loadsBadLength_getPixel (x y : Field) : ¬ LoadsBadLength (.getPixel x y) := fun ⟨_, _, h, _⟩ => nomatch h

/-- A response over the same M. -/
theorem answers_respond (s : State) (st : Status) (data : BitVec 24) : Answers s (respond st data s) st data :=
  answers_respond_setMem s s.mem st data

/-- A rejection is one answer with data 0 (R250, R257). -/
theorem answers_reject (s : State) (st : Status) : Answers s (reject st s) st 0 := answers_respond s st 0

/-- Off the canvas getPixel is rejected, from O26 (R253). -/
theorem exec_getPixel_of_not_onCanvas (s : State) {x y : Field} (hoff : ¬ OnCanvas x.toInt y.toInt) :
    exec (.getPixel x y) s = .next (reject .outOfRange s) := by
  obtain ⟨-, hget⟩ := getPixelAnswersTheColour
  obtain ⟨-, hrejected⟩ := hget s x y
  exact hrejected hoff

/-- "No other operation can report anything but OK" (R250). -/
theorem exec_answers_ok {i : Instr} (hload : ¬ LoadsBadLength i) (hget : ¬ GetsOffCanvas i) (s : State) :
    ∃ t data, exec i s = .next t ∧ Answers s t .ok data := by
  cases i with
  | getPixel x y =>
    have hon : OnCanvas x.toInt y.toInt := by_contra fun hoff => hget ⟨x, y, rfl, hoff⟩
    exact ⟨_, _, exec_getPixel_of_onCanvas s hon, answers_respond s .ok _⟩
  | loadSpriteSheet len payload =>
    obtain rfl : len = 0x3000 := by_contra fun hlen => hload ⟨len, payload, rfl, hlen⟩
    exact ⟨_, 0, rfl, answers_respond_setMem s _ .ok 0⟩
  | getPalettes | frames => exact ⟨_, _, rfl, answers_respond s .ok _⟩
  | setPixel | setPaletteA | setPaletteB | setBackground | setCamera | setClip | resetClip | drawRectBorder | fillRect
  | drawLine | clearScreen | advance => exact ⟨_, 0, rfl, answers_respond_setMem s _ .ok 0⟩

end Sys2Proof.Claims

/-- Settles O7: a command is a load of a bad length, a getPixel off the canvas, or answers OK; an illegal word is
rejected by the step. -/
theorem rejectionsAreExactlyThese : Obligations.RejectionsAreExactlyThese := by
  unfold Obligations.RejectionsAreExactlyThese
  refine ⟨fun i s => ?command, fun s op rest hs hport => ?illegal, rfl, rfl, rfl⟩
  case command =>
    by_cases hload : LoadsBadLength i
    · obtain ⟨len, payload, rfl, hlen⟩ := id hload
      exact ⟨_, _, 0, exec_loadSpriteSheet_badLength s hlen payload, answers_reject s _, by decide,
        iff_of_true rfl hload, iff_of_false (by decide) (not_getsOffCanvas_loadSpriteSheet len payload),
        fun _ => ⟨rfl, rfl⟩⟩
    by_cases hget : GetsOffCanvas i
    · obtain ⟨x, y, rfl, hoff⟩ := id hget
      exact ⟨_, _, 0, exec_getPixel_of_not_onCanvas s hoff, answers_reject s _, by decide,
        iff_of_false (by decide) (not_loadsBadLength_getPixel x y), iff_of_true rfl hget, fun _ => ⟨rfl, rfl⟩⟩
    · obtain ⟨t, data, hexec, hanswers⟩ := exec_answers_ok hload hget s
      exact ⟨t, .ok, data, hexec, hanswers, by decide, iff_of_false (by decide) hload, iff_of_false (by decide) hget,
        fun h => absurd rfl h⟩
  case illegal =>
    have hfetch : fetch s = .illegal op rest := (fetch_of_constructed hs).trans hport
    exact ⟨_, step_illegal hfetch, answers_reject _ _, rfl⟩
end

section
/-! PROOF. Decoding what the encoder wrote (30_encoding.md sections 2 and 4): each format's words decode to their
command, whatever stands in the fields, so the encoder's words do. -/

open Sys2Proof Sys2Proof.Machine Sys2Proof.Claims

namespace Sys2Proof.Claims

/-- Every word with the op of advance is advance (R99, R101, R220). -/
theorem encodes_advance : Encodes 0x50 fun _ _ _ _ _ => .advance := by
  intro a b c d k rest
  rw [decode_wordBytes, decodeWord_advance (fieldOp_packWord ..)]

/-- A command without payload, whose word has its format's fields at `a b c d k`, is decoded from its bytes. -/
theorem decode_encode_of_encodes {op : Byte} {f : Field → Field → Field → Field → Byte → Instr} (hf : Encodes op f)
    {i : Instr} {a b c d : Field} {k : Byte} (hword : encodeWord i = packWord op a b c d k) (hnone : payloadOf i = [])
    (hi : f a b c d k = i) (rest : List Byte) : decode (encode i ++ rest) = .instr i rest := by
  rw [encode, hword, hnone, List.append_nil, hf, hi]

/-- The encoder is inverted by the decoder, and what is behind the command stays on the port (R92, R93, R99, R103). -/
theorem decode_encode {i : Instr} (hwf : i.wf = true) (rest : List Byte) :
    decode (encode i ++ rest) = .instr i rest := by
  cases i with
  | setPixel => exact decode_encode_of_encodes setPixelPaintsOnePixel.1 rfl rfl rfl rest
  | getPixel => exact decode_encode_of_encodes getPixelAnswersTheColour.1 rfl rfl rfl rest
  | setPaletteA => exact decode_encode_of_encodes setPaletteAWritesTheHighNibble.1 rfl rfl rfl rest
  | setPaletteB => exact decode_encode_of_encodes setPaletteBWritesTheLowNibble.1 rfl rfl rfl rest
  | getPalettes => exact decode_encode_of_encodes getPalettesAnswersPal.1 rfl rfl rfl rest
  | setBackground => exact decode_encode_of_encodes setBackgroundWritesTheTopBits.1 rfl rfl rfl rest
  | setCamera => exact decode_encode_of_encodes setCameraStoresBothFields.1 rfl rfl rfl rest
  | setClip => exact decode_encode_of_encodes setClipStoresTheLowBytes.1 rfl rfl rfl rest
  | resetClip => exact decode_encode_of_encodes resetClipStoresTheFullCanvas.1 rfl rfl rfl rest
  | drawRectBorder => exact decode_encode_of_encodes drawRectBorderIsItsLoop.1 rfl rfl rfl rest
  | fillRect => exact decode_encode_of_encodes fillRectIsItsLoop.1 rfl rfl rfl rest
  | drawLine => exact decode_encode_of_encodes drawLineIsItsLoop.1 rfl rfl rfl rest
  | clearScreen => exact decode_encode_of_encodes clearScreenFillsBothPlanes.1 rfl rfl rfl rest
  | advance => exact decode_encode_of_encodes encodes_advance rfl rfl rfl rest
  | frames => exact decode_encode_of_encodes framesAnswersTheCounter.1 rfl rfl rfl rest
  | loadSpriteSheet len payload =>
    obtain ⟨hframing, -⟩ := loadCopiesThePayloadOrRejects
    have hlen : payload.length = len.toNat := by simpa [Instr.wf] using hwf
    have hdecode := hframing 0 0 (len.extractLsb' 16 16) (len.extractLsb' 0 16) 0 payload rest
    rw [halves_of_len] at hdecode
    rw [encode, List.append_assoc]
    exact hdecode hlen

/-- An encoded command alone on the port. -/
theorem decode_encode_alone {i : Instr} (hwf : i.wf = true) : decode (encode i) = .instr i [] := by
  rw [← decode_encode hwf [], List.append_nil]

/-- An illegal word alone on the port (R251). -/
theorem decode_wordBytes_illegal {w : CommandWord} (h : fieldOp w ∉ opcodes) :
    decode (wordBytes w) = .illegal (fieldOp w) [] := by
  rw [← decodeWord_illegal h [], ← decode_wordBytes, List.append_nil]

end Sys2Proof.Claims

/-- Settles O1: a format at a time, from what each command's words decode to. -/
theorem encodeThenDecodeIsIdentity : Obligations.EncodeThenDecodeIsIdentity :=
  fun _ rest hwf => decode_encode hwf rest

/-- Settles O5: ten closed words, each run through the decoder. -/
theorem sampleWordsDecode : Obligations.SampleWordsDecode := by
  unfold Obligations.SampleWordsDecode
  decide
end

section
/-! PROOF. The response word (30_encoding.md section 3). -/

open Sys2Proof Sys2Proof.Machine Sys2Proof.Claims

namespace Sys2Proof.Machine

/-- The status code stands above the 24 data bits (R97). -/
theorem Response.toNat_word (r : Response) : r.word.toNat = r.status.code.toNat * 2 ^ 24 + r.data.toNat := by
  rw [Response.word, BitVec.toNat_append, ← Nat.shiftLeft_add_eq_or_of_lt r.data.isLt, Nat.shiftLeft_eq]

/-- The four bytes of a response, most significant first, are its word (R97). -/
theorem Response.toNat_bytes (r : Response) :
    (r.bytes.map BitVec.toNat).foldl (fun n b => n * 256 + b) 0 = r.word.toNat := by
  simp only [Response.bytes, List.map_cons, List.map_nil, List.foldl_cons, List.foldl_nil, BitVec.extractLsb'_toNat,
    Nat.shiftRight_eq_div_pow]
  omega

end Sys2Proof.Machine

/-- Settles O8: the word is the code above the data, and its bytes are read back by division. -/
theorem responseWordLayout : Obligations.ResponseWordLayout := by
  refine fun st data => ⟨?_, Response.toNat_bytes _⟩
  rw [Response.toNat_word]
  cases st <;> rfl
end

section
/-! PROOF. The port and the host's turn (20_memory.md R72, 45_host_interface.md section 6): a command on the port is
served in one step, and otherwise the host makes its next act, if that breaks no duty. -/

open Sys2Proof Sys2Proof.Machine Sys2Proof.Claims

namespace Sys2Proof.Claims

/-- The decoder's test of one command is the statements' (R103; R238 H1, H4). -/
theorem oneCommand_iff (bytes : List Byte) : OneCommand bytes ↔ isOneCommand bytes = true :=
  (isOneCommand_iff bytes).symm

end Sys2Proof.Claims

namespace Sys2Proof.Machine

variable {s t : State} {m : HostMove} {later : List HostMove}

/-! ## What is on the port -/

/-- Nothing on the port is no command. -/
theorem fetch_of_port_nil (h : s.port = []) : fetch s = .incomplete := by
  rw [fetch, h]
  exact ite_self _

/-- A block that is not constructed finds no command (R47). -/
theorem fetch_of_not_constructed (h : s.constructed = false) : fetch s = .incomplete :=
  if_neg (Bool.eq_false_iff.1 h)

/-- Exactly one command leaves nothing behind it (R238 H1, H4). -/
theorem decode_of_isOneCommand {bytes : List Byte} (h : isOneCommand bytes = true) :
    (∃ i, decode bytes = .instr i []) ∨ ∃ op, decode bytes = .illegal op [] := by
  unfold isOneCommand at h
  split at h
  · next i rest hdecode => exact .inl ⟨i, List.isEmpty_iff.1 h ▸ hdecode⟩
  · next op rest hdecode => exact .inr ⟨op, List.isEmpty_iff.1 h ▸ hdecode⟩
  · cases h

/-- The encoder writes exactly one command. -/
theorem isOneCommand_encode {i : Instr} (hwf : i.wf = true) : isOneCommand (encode i) = true := by
  rw [isOneCommand, decode_encode_alone hwf]
  rfl

/-- An illegal word alone is one command for the port (R251). -/
theorem isOneCommand_illegal {w : CommandWord} (h : fieldOp w ∉ opcodes) : isOneCommand (wordBytes w) = true := by
  rw [isOneCommand, decode_wordBytes_illegal h]
  rfl

/-! ## The block's turn -/

/-- The step on a command (R93, R103). -/
theorem step_instr {i : Instr} {rest : List Byte} (h : fetch s = .instr i rest) :
    step s = exec i { s with port := rest } := by
  rw [step, h]

/-- A step with a command or an illegal word on the port gives one response and moves nothing but M and the port. -/
theorem step_serves (h : fetch s ≠ .incomplete) :
    ∃ st data mem rest, step s = .next (respond st data ({ s with port := rest }.setMem mem)) := by
  cases hfetch : fetch s with
  | instr i rest =>
    obtain ⟨st, data, mem, hexec, -⟩ := exec_shape i { s with port := rest }
    exact ⟨st, data, mem, rest, (step_instr hfetch).trans hexec⟩
  | illegal op rest => exact ⟨.illegalCommand, 0, s.mem, rest, step_illegal hfetch⟩
  | incomplete => exact absurd hfetch h

/-- One command served gives one response and moves nothing but M (R250). -/
theorem serve_shape {bytes : List Byte} (h : isOneCommand bytes = true) (s : State) :
    ∃ st data mem, serve bytes s = .next (respond st data (s.setMem mem)) := by
  unfold serve
  rcases decode_of_isOneCommand h with ⟨i, hdecode⟩ | ⟨op, hdecode⟩
  · obtain ⟨st, data, mem, hexec, -⟩ := exec_shape i s
    exact ⟨st, data, mem, by rw [hdecode]; exact hexec⟩
  · exact ⟨.illegalCommand, 0, s.mem, by rw [hdecode]; rfl⟩

/-- With exactly one command on the port the step serves it and empties the port (R238 H1). -/
theorem step_of_isOneCommand (hs : s.constructed = true) (hport : isOneCommand s.port = true) :
    step s = serve s.port { s with port := [] } := by
  rcases decode_of_isOneCommand hport with ⟨i, hdecode⟩ | ⟨op, hdecode⟩
  · rw [step_instr ((fetch_of_constructed hs).trans hdecode), serve, hdecode]
  · rw [step_illegal ((fetch_of_constructed hs).trans hdecode), serve, hdecode]

/-! ## The host's turn -/

theorem step_of_incomplete (h : fetch s = .incomplete) : step s = hostTurn s := by
  rw [step, h]

/-- With nothing planned the state stays as it is (R266). -/
theorem step_idle (hfetch : fetch s = .incomplete) (hmoves : s.moves = []) : step s = .next s := by
  rw [step_of_incomplete hfetch, hostTurn, hmoves]

/-- The next act, when it breaks no duty. -/
theorem step_hostAct (hfetch : fetch s = .incomplete) (hmoves : s.moves = m :: later) (hduty : brokenDuty m s = none) :
    step s = .next (hostAct m { s with moves := later }) := by
  rw [step_of_incomplete hfetch, hostTurn, hmoves]
  dsimp only
  rw [hduty]

/-- The next act, when it breaks one. -/
theorem step_brokenDuty (hfetch : fetch s = .incomplete) (hmoves : s.moves = m :: later) {f : Fault}
    (hduty : brokenDuty m s = some f) : step s = .fault f := by
  rw [step_of_incomplete hfetch, hostTurn, hmoves]
  dsimp only
  rw [hduty]

/-- What a step that gives a next state was: the service of a command, the wait, or an act that breaks no duty. -/
theorem step_next_cases (h : step s = .next t) :
    (fetch s ≠ .incomplete ∧
      ∃ st data mem rest, t = respond st data ({ s with port := rest }.setMem mem)) ∨
    (fetch s = .incomplete ∧ s.moves = [] ∧ t = s) ∨
    (fetch s = .incomplete ∧
      ∃ m later, s.moves = m :: later ∧ brokenDuty m s = none ∧ t = hostAct m { s with moves := later }) := by
  by_cases hfetch : fetch s = .incomplete
  · rw [step_of_incomplete hfetch] at h
    rcases hostTurn_cases h with ⟨hmoves, ht⟩ | ⟨m, later, hmoves, hduty, ht⟩
    · exact .inr (.inl ⟨hfetch, hmoves, ht⟩)
    · exact .inr (.inr ⟨hfetch, m, later, hmoves, hduty, ht⟩)
  · obtain ⟨st, data, mem, rest, hstep⟩ := step_serves hfetch
    exact .inl ⟨hfetch, st, data, mem, rest, Host.Outcome.next.inj (h.symm.trans hstep)⟩

/-- When a step stops, and with what: the host's next act breaks a duty. -/
theorem step_eq_fault_iff {f : Fault} :
    step s = .fault f ↔ ∃ m, HostActs s m ∧ brokenDuty m s = some f := by
  constructor
  · intro h
    by_cases hfetch : fetch s = .incomplete
    · rw [step_of_incomplete hfetch, hostTurn] at h
      cases hmoves : s.moves with
      | nil =>
        rw [hmoves] at h
        cases h
      | cons m later =>
        rw [hmoves] at h
        cases hduty : brokenDuty m s with
        | none =>
          simp only [hduty] at h
          cases h
        | some g =>
          simp only [hduty] at h
          cases h
          exact ⟨m, ⟨hfetch, by rw [hmoves]; rfl⟩, hduty⟩
    · obtain ⟨st, data, mem, rest, hstep⟩ := step_serves hfetch
      cases h.symm.trans hstep
  · rintro ⟨m, ⟨hfetch, hhead⟩, hduty⟩
    obtain ⟨later, hmoves⟩ := List.head?_eq_some_iff.1 hhead
    exact step_brokenDuty hfetch hmoves hduty

/-- No step is refused: every command has its meaning. -/
theorem step_ne_refused (s : State) (r : Refusal) : step s ≠ .refused r := by
  intro h
  by_cases hfetch : fetch s = .incomplete
  · rw [step_of_incomplete hfetch, hostTurn] at h
    split at h
    · cases h
    · split at h <;> cases h
  · obtain ⟨st, data, mem, rest, hstep⟩ := step_serves hfetch
    cases h.symm.trans hstep

end Sys2Proof.Machine

namespace Sys2Proof.Claims

/-! ## The duties -/

/-- The first two duties as the statements order them (R238 H5, H1, H3). -/
theorem notBetweenCommands_eq_some {s : State} {f : Fault} :
    notBetweenCommands s = some f ↔
      (f = .notConstructed ∧ s.constructed = false) ∨
        (s.constructed = true ∧ f = .hostActInsideCommand ∧ s.port ≠ []) := by
  unfold notBetweenCommands
  cases s.constructed <;> cases s.port <;> simp [eq_comm]

/-- A duty that is looked at after the first two. -/
theorem notBetweenCommands_or_eq_some {s : State} {f : Fault} {o : Option Fault} :
    (notBetweenCommands s).or o = some f ↔
      (f = .notConstructed ∧ s.constructed = false) ∨
        (s.constructed = true ∧ ((f = .hostActInsideCommand ∧ s.port ≠ []) ∨ (s.port = [] ∧ o = some f))) := by
  rw [Option.or_eq_some_iff, notBetweenCommands_eq_some, notBetweenCommands_eq_none]
  tauto

/-- The last two duties, of an act that is no construction and no destruction: what is issued is one command, and the
act has its place in the tick (R238 H1, H3, H4). -/
def BreaksItsForm (m : HostMove) (p : TickPhase) (f : Fault) : Prop :=
  (f = .notOneCommand ∧ ∃ bytes, m = .issue bytes ∧ ¬ OneCommand bytes) ∨
    (f = .outsideItsPlace ∧ (∀ bytes, m = .issue bytes → OneCommand bytes) ∧ ¬ InItsPlace m p)

theorem breaksItsForm_issue {bytes : List Byte} {p : TickPhase} {f : Fault} :
    BreaksItsForm (.issue bytes) p f ↔
      (if isOneCommand bytes then (if p = .sampled then some .outsideItsPlace else none)
       else some .notOneCommand) = some f := by
  simp only [BreaksItsForm, InItsPlace, HostMove.issue.injEq, exists_eq_left', forall_eq', oneCommand_iff]
  by_cases hone : isOneCommand bytes = true <;> by_cases hp : p = .sampled <;> simp [hone, hp, eq_comm]

/-- An act that issues nothing can only be out of its place. -/
theorem breaksItsForm_of_not_issue {m : HostMove} (hm : ∀ bytes, m ≠ .issue bytes) {p : TickPhase} {f : Fault}
    {place : Prop} [Decidable place] (hplace : InItsPlace m p ↔ place) :
    BreaksItsForm m p f ↔ (if place then none else some .outsideItsPlace) = some f := by
  by_cases h : place <;> simp [BreaksItsForm, hm, hplace, h, eq_comm]

/-- The model's duties are those of the statements, act by act (R238). -/
theorem brokenDuty_eq_some_iff {s : State} {m : HostMove} {f : Fault} : brokenDuty m s = some f ↔ BreaksDuty s m f := by
  have hduty (hc : m ≠ .construct) (hd : m ≠ .destroy) {form : Option Fault}
      (hform : BreaksItsForm m s.phase f ↔ form = some f) :
      (notBetweenCommands s).or form = some f ↔ BreaksDuty s m f := by
    rw [notBetweenCommands_or_eq_some, ← hform, BreaksDuty, BreaksItsForm]
    simp only [ne_eq, hc, hd, not_false_eq_true, true_and]
  cases m with
  | issue bytes => exact hduty nofun nofun breaksItsForm_issue
  | startTick => exact hduty nofun nofun (breaksItsForm_of_not_issue (m := .startTick) nofun .rfl)
  | sampleInput input => exact hduty nofun nofun (breaksItsForm_of_not_issue (m := .sampleInput input) nofun .rfl)
  | publish => exact hduty nofun nofun (breaksItsForm_of_not_issue (m := .publish) nofun .rfl)
  | construct => simp [brokenDuty, BreaksDuty]
  | destroy => cases hs : s.constructed <;> simp [brokenDuty, BreaksDuty, hs, eq_comm]

/-- An act on a constructed block with an empty port breaks no duty when it is one command, if any, in its place. -/
theorem brokenDuty_of_inItsPlace {s : State} {m : HostMove} (hs : s.constructed = true) (hport : s.port = [])
    (hplace : InItsPlace m s.phase) (hone : ∀ bytes, m = .issue bytes → OneCommand bytes) : brokenDuty m s = none := by
  rw [brokenDuty_eq_none]
  cases m with
  | issue bytes => exact ⟨hs, hport, (oneCommand_iff bytes).1 (hone bytes rfl), hplace⟩
  | startTick | sampleInput | publish => exact ⟨hs, hport, hplace⟩
  | construct => trivial
  | destroy => exact hs

/-- The host's next act on a constructed block with an empty port, in its place and one command if any, is done. -/
theorem step_of_inItsPlace {s : State} {m : HostMove} {later : List HostMove} (hs : s.constructed = true)
    (hport : s.port = []) (hmoves : s.moves = m :: later) (hplace : InItsPlace m s.phase)
    (hone : ∀ bytes, m = .issue bytes → OneCommand bytes) :
    step s = .next (hostAct m { s with moves := later }) :=
  step_hostAct (fetch_of_port_nil hport) hmoves (brokenDuty_of_inItsPlace hs hport hplace hone)

end Sys2Proof.Claims

/-- Settles O6: a constructed block fetches what the decoder reads. -/
theorem stepExecutesTheCommandOnThePort : Obligations.StepExecutesTheCommandOnThePort :=
  fun _ _ _ hs hdecode => step_instr ((fetch_of_constructed hs).trans hdecode)

/-- Settles O15: the only stop is in the host's turn, at an act that breaks a duty. -/
theorem stepStopsOnlyOnHostMisuse : Obligations.StepStopsOnlyOnHostMisuse := by
  refine ⟨step_ne_refused, fun s f => ?_, fun s hs hdecode => ?_⟩
  · simp only [step_eq_fault_iff, brokenDuty_eq_some_iff]
  · obtain ⟨st, data, mem, rest, hstep⟩ := step_serves (s := s) (by rwa [fetch_of_constructed hs])
    exact ⟨_, hstep⟩

/-- Settles O51: the invariant's port, and the service of one command. -/
theorem oneCommandAtATime : Obligations.OneCommandAtATime := by
  intro s hinv hs
  rcases hinv.port with hport | hport
  · exact .inl ⟨hport, step_of_incomplete (fetch_of_port_nil hport)⟩
  · refine .inr ⟨(oneCommand_iff s.port).2 hport, ?_⟩
    obtain ⟨st, data, mem, hserve⟩ := serve_shape hport { s with port := [] }
    exact ⟨_, ⟨st, data⟩, (step_of_isOneCommand hs hport).trans hserve, rfl, rfl, rfl, rfl, rfl⟩
end

section
/-! PROOF. The host's acts one by one (45_host_interface.md sections 3 to 6, 70_reset_and_hazards.md section 1): what
each leaves, and that each comes at its point of the tick. -/

open Sys2Proof Sys2Proof.Machine Sys2Proof.Claims

namespace Sys2Proof.Machine

variable {s : State} {later : List HostMove}

/-- Issuing a command puts it on the port of an idle block, and the next step serves it (R266, R238 H1). -/
theorem steps_of_issue (hs : s.constructed = true) (hport : s.port = []) (hphase : s.phase ≠ .sampled)
    {bytes : List Byte} (hone : isOneCommand bytes = true) (hmoves : s.moves = .issue bytes :: later) :
    step s = .next { s with moves := later, port := bytes } ∧
      step { s with moves := later, port := bytes } = serve bytes { s with moves := later } := by
  refine ⟨step_hostAct (fetch_of_port_nil hport) hmoves (brokenDuty_eq_none.2 ⟨hs, hport, hone, hphase⟩), ?_⟩
  rw [step_of_isOneCommand (s := { s with moves := later, port := bytes }) hs hone, ← hport]

/-- A well-formed command served is its meaning. -/
theorem serve_encode {i : Instr} (hwf : i.wf = true) (s : State) : serve (encode i) s = exec i s := by
  rw [serve, decode_encode_alone hwf]

/-- An illegal word served is rejected (R251). -/
theorem serve_illegal {w : CommandWord} (h : fieldOp w ∉ opcodes) (s : State) :
    serve (wordBytes w) s = .next (reject .illegalCommand s) := by
  rw [serve, decode_wordBytes_illegal h]

/-! ## Publish -/

/-- The bytes of a frame are the bytes of M below FRAME_END (R236). -/
theorem frameBytes_frameOf_getElem? (s : State) {a : Nat} (ha : a < frameEnd s.palBase) :
    (frameBytes s.palBase (frameOf s))[a]? = some (s.mem.read a) := by
  rw [frameBytes, List.getElem?_map, List.getElem?_range ha, Option.map_some, frameOf, Memory.read_below, if_pos ha]

/-- With PAL_BASE = 0x2401 the byte 0x2400 is the unassigned one and holds 0 (R25, R42). -/
theorem State.Inv.read_gap (hinv : s.Inv) (hbase : s.palBase = .x2401) : s.mem.read 0x2400 = 0 := by
  have hgap : NeverWritten s.palBase 0x2400 := by
    rw [hbase]
    exact .inr (.inl (by decide))
  rw [hinv.untouched _ hgap, State.reset_read_below_builtin (by decide)]

/-! ## SampleInput -/

/-- Where the 58 input bytes go (R234). -/
theorem read_sampleInput (hs : s.mem.wf = true) (input : Vector Byte 58) {k : Nat} (hk : k < 58) :
    (sampleInput input s).mem.read (0x360E + k) = input[k] := by
  rw [sampleInput_mem, addrInput, Memory.read_store_at hs (by simp) (by simpa using hk)]
  simp

/-- The input sample writes the input bytes only (R234). -/
theorem writesOnly_sampleInput (hs : s.mem.wf = true) (input : Vector Byte 58) :
    WritesOnly s (sampleInput input s) fun a => 0x360E ≤ a ∧ a ≤ 0x3647 :=
  writesOnly_store hs (sampleInput_mem input s) (by simp [addrInput]) fun a hlo hhi => by
    rw [Vector.length_toList, addrInput] at hhi
    exact ⟨hlo, by omega⟩

end Sys2Proof.Machine

namespace Sys2Proof.Claims

/-- No command consults a byte from the clip registers on (R71). -/
theorem lt_clip_of_consults {pb : Config.PalBase} {i : Instr} {a : Nat} (h : Consults pb i a) : a < 0x360A := by
  cases i
  case getPixel x y =>
    obtain ⟨hon, ha⟩ := h
    have hbase := palBaseAddr_le pb
    unfold OnCanvas at hon
    omega
  case setPixel | setPaletteA | setPaletteB | setBackground | setCamera | setClip | resetClip | loadSpriteSheet =>
    exact h.elim
  case getPalettes | clearScreen | drawRectBorder | fillRect | drawLine | advance | frames =>
    unfold Consults at h
    omega

/-- A command answers alike before and after a write beyond the bytes commands consult (R71). -/
theorem exec_responses_of_writesOnly {s t : State} {W : Nat → Prop} (hs : s.mem.wf = true)
    (hbase : t.palBase = s.palBase) (hresp : t.responses = s.responses) (hwrites : WritesOnly s t W)
    (hW : ∀ a, W a → 0x360A ≤ a) {i : Instr} {s' t' : State} (hs' : exec i s = .next s') (ht' : exec i t = .next t') :
    t'.responses = s'.responses := by
  obtain ⟨ht, hread⟩ := hwrites
  obtain ⟨st, data, n, n', hexec, hexec', -⟩ := exec_congr i hs ht hbase fun a ha => hread a fun hWa =>
    absurd (lt_clip_of_consults ha) (Nat.not_lt.2 (hW a hWa))
  cases hs'.symm.trans hexec
  cases ht'.symm.trans hexec'
  rw [respond_responses, respond_responses, setMem_responses, setMem_responses, hresp]

end Sys2Proof.Claims

/-- Settles O9: the wait, then the two steps of an issued command, legal or not. -/
theorem idleBlockWaitsForACommand : Obligations.IdleBlockWaitsForACommand := by
  refine fun s hs hport => ⟨step_idle (fetch_of_port_nil hport), fun i later hwf hphase hmoves => ?legal,
    fun w later hop hphase hmoves => ?illegal⟩
  case legal =>
    obtain ⟨hissue, hserve⟩ := steps_of_issue hs hport hphase (isOneCommand_encode hwf) hmoves
    exact ⟨_, hissue, rfl, hserve.trans (serve_encode hwf _)⟩
  case illegal =>
    obtain ⟨hissue, hserve⟩ := steps_of_issue hs hport hphase (isOneCommand_illegal hop) hmoves
    exact ⟨_, hissue, rfl, hserve.trans (serve_illegal hop _)⟩

/-- Settles O10: one store of 58 bytes, above every byte a command consults. -/
theorem sampleInputWritesTheInputBytes : Obligations.SampleInputWritesTheInputBytes := by
  intro s input later hs hport hwf hphase hmoves
  have hbyte {k : Nat} (hk : k < 58) := read_sampleInput (s := { s with moves := later }) hwf input hk
  have hwrites := writesOnly_sampleInput (s := { s with moves := later }) hwf input
  refine ⟨_, step_of_inItsPlace hs hport hmoves hphase nofun, fun k hk => hbyte hk, hwrites,
    hbyte (k := 0) (by decide), hbyte (k := 1) (by decide), hbyte (k := 2) (by decide), fun k => ?key, rfl, hport, rfl,
    rfl, rfl, rfl, hs, fun i s' t' hs' ht' => ?answers⟩
  case key =>
    rw [State.key, Nat.add_assoc]
    exact hbyte (by omega)
  case answers =>
    exact exec_responses_of_writesOnly (t := sampleInput input { s with moves := later }) hwf rfl rfl hwrites
      (fun a ha => le_trans (by decide) ha.1) hs' ht'

/-- Settles O11: the frame is the cells of M below FRAME_END. -/
theorem publishCopiesTheFrameRegion : Obligations.PublishCopiesTheFrameRegion := by
  intro s later hs hport hphase hmoves
  refine ⟨frameOf s, step_of_inItsPlace hs hport hmoves hphase nofun, ?length,
    fun a ha => frameBytes_frameOf_getElem? s ha, fun hinv hbase => ?gap⟩
  case length => rw [frameBytes, List.length_map, List.length_range, frameEnd, palettePlaneSize]
  case gap =>
    have hgap : 0x2400 < frameEnd s.palBase := by
      rw [hbase]
      decide
    rw [frameBytes_frameOf_getElem? s hgap, hinv.read_gap hbase]

/-- Settles O12: after construction nothing is listed in M, so every byte reads as its reset contents. -/
theorem constructionResetsM : Obligations.ConstructionResetsM :=
  fun _ _ hfetch hmoves => ⟨_, step_hostAct hfetch hmoves rfl, rfl, rfl, rfl, rfl, rfl, Memory.unlisted_eq_builtin⟩

/-- Settles O52: by what a step was; a service and the wait leave the phase, and an act breaks no duty. -/
theorem hostActsOnlyAtItsPlaces : Obligations.HostActsOnlyAtItsPlaces := by
  intro s t hstep
  rcases step_next_cases hstep with ⟨hfetch, st, data, mem, rest, rfl⟩ | ⟨-, hmoves, rfl⟩ |
    ⟨hfetch, m, later, hmoves, hduty, rfl⟩
  · exact .inr (.inr (.inr (.inr ⟨fun m ⟨hincomplete, _⟩ => absurd hincomplete hfetch, rfl⟩)))
  · refine .inr (.inr (.inr (.inr ⟨fun m ⟨_, hhead⟩ => ?_, rfl⟩)))
    rw [hmoves] at hhead
    cases hhead
  · have hnext : s.moves.head? = some m := by rw [hmoves, List.head?_cons]
    rw [brokenDuty_eq_none] at hduty
    cases m with
    | issue bytes =>
      obtain ⟨-, -, hone, hphase⟩ := hduty
      refine .inr (.inr (.inr (.inr ⟨fun m ⟨_, hhead⟩ => ⟨hphase, bytes, ?_, (oneCommand_iff bytes).2 hone⟩, rfl⟩)))
      exact Option.some.inj (hhead.symm.trans hnext)
    | startTick =>
      obtain ⟨-, -, hphase⟩ := hduty
      exact .inr (.inl ⟨⟨hfetch, hnext⟩, hphase, rfl⟩)
    | sampleInput input =>
      obtain ⟨-, -, hphase⟩ := hduty
      exact .inr (.inr (.inl ⟨⟨input, hfetch, hnext⟩, hphase, rfl⟩))
    | publish =>
      obtain ⟨-, -, hphase⟩ := hduty
      exact .inr (.inr (.inr (.inl ⟨⟨hfetch, hnext⟩, hphase, rfl⟩)))
    | construct => exact .inl ⟨⟨hfetch, .inl hnext⟩, rfl⟩
    | destroy => exact .inl ⟨⟨hfetch, .inr hnext⟩, rfl⟩

/-- Settles O53: each act in its place breaks no duty, and does what it does. -/
theorem hostLibertiesAreAllowed : Obligations.HostLibertiesAreAllowed := by
  refine fun s hs hport => ⟨step_idle (fetch_of_port_nil hport), fun m later hmoves hplace hone => ?_⟩
  refine ⟨_, step_of_inItsPlace hs hport hmoves hplace hone, ?_⟩
  cases m with
  | issue bytes => exact ⟨rfl, rfl, by rintro _ ⟨⟩; exact ⟨rfl, rfl, rfl⟩, nofun, nofun, fun _ => hs⟩
  | startTick => exact ⟨rfl, rfl, nofun, fun _ => ⟨decode_encode_alone rfl, rfl⟩, nofun, fun _ => hs⟩
  | sampleInput input => exact ⟨rfl, rfl, nofun, nofun, nofun, fun _ => hs⟩
  | publish => exact ⟨rfl, rfl, nofun, nofun, nofun, fun _ => hs⟩
  | construct => exact ⟨rfl, rfl, nofun, nofun, nofun, fun _ => rfl⟩
  | destroy => exact ⟨rfl, rfl, nofun, nofun, fun _ => ⟨rfl, rfl⟩, fun h => absurd rfl h⟩

/-- Settles O54: destruction is an act like the others, and a block that is not constructed has no other turn than the
host's, whose acts but construction break H5. -/
theorem destroyedBlockAcceptsNoCommand : Obligations.DestroyedBlockAcceptsNoCommand := by
  refine ⟨fun s later hs hfetch hmoves => ?destroy, fun s hs => ⟨?idle, ?stops, ?construct⟩⟩
  case destroy => exact ⟨_, step_hostAct hfetch hmoves (brokenDuty_eq_none.2 hs), rfl, rfl, rfl, rfl, rfl, rfl, rfl⟩
  case idle => exact step_idle (fetch_of_not_constructed hs)
  case stops =>
    intro m later hmoves hm
    exact step_brokenDuty (fetch_of_not_constructed hs) hmoves (brokenDuty_eq_some_iff.2 ⟨hm, .inl ⟨rfl, hs⟩⟩)
  case construct =>
    intro later hmoves
    exact ⟨_, step_hostAct (fetch_of_not_constructed hs) hmoves rfl, rfl, rfl, rfl, rfl⟩
end

section
/-! PROOF. One tick (45_host_interface.md section 5): no command reads what the host plans or how far the tick is, so
the commands it issues one by one are served as if they stood alone. -/

open Sys2Proof Sys2Proof.Machine Sys2Proof.Claims

namespace Sys2Proof.Machine

/-- The state with other plans of the host and another point of the tick. -/
def State.withHost (s : State) (moves : List HostMove) (phase : TickPhase) : State :=
  { s with moves := moves, phase := phase }

/-- No command depends on the host's plans or on the point of the tick (R72). -/
theorem exec_withHost {i : Instr} {s t : State} (h : exec i s = .next t) (moves : List HostMove) (phase : TickPhase) :
    exec i (s.withHost moves phase) = .next (t.withHost moves phase) := by
  cases i
  case getPixel x y =>
    by_cases hin : inCanvas (sext16 x) (sext16 y) = true
    · cases (if_pos hin).symm.trans h
      exact if_pos hin
    · cases (if_neg hin).symm.trans h
      exact if_neg hin
  case loadSpriteSheet len payload =>
    by_cases hlen : len.toNat ≠ spriteSheetSize
    · cases (if_pos hlen).symm.trans h
      exact if_pos hlen
    · cases (if_neg hlen).symm.trans h
      exact if_neg hlen
  all_goals
    cases h
    rfl

theorem serve_withHost {bytes : List Byte} {s t : State} (h : serve bytes s = .next t) (moves : List HostMove)
    (phase : TickPhase) : serve bytes (s.withHost moves phase) = .next (t.withHost moves phase) := by
  unfold serve at h ⊢
  split at h
  · exact exec_withHost h moves phase
  · cases h
    rfl
  · cases h
    rfl

/-- Commands are served, however many (R72, R250). -/
theorem serveAll_answers {cmds : List (List Byte)} (hall : ∀ bytes ∈ cmds, isOneCommand bytes = true) (s : State) :
    ∃ u, serveAll cmds s = .next u := by
  induction cmds generalizing s with
  | nil => exact ⟨s, rfl⟩
  | cons bytes cmds ih =>
    obtain ⟨hone, hrest⟩ := List.forall_mem_cons.1 hall
    obtain ⟨st, data, mem, hserve⟩ := serve_shape hone s
    obtain ⟨u, hu⟩ := ih hrest (respond st data (s.setMem mem))
    exact ⟨u, by rw [serveAll, hserve]; exact hu⟩

theorem run_succ_of_step {s t : State} (h : step s = .next t) (k : Nat) : run (k + 1) s = run k t := by
  rw [run, h]

/-- Two steps of a run issue one command and serve it. -/
theorem run_issue {s t : State} (hs : s.constructed = true) (hport : s.port = []) {phase : TickPhase}
    (hphase : phase ≠ .sampled) {bytes : List Byte} (hone : isOneCommand bytes = true)
    (hserve : serve bytes s = .next t) (later : List HostMove) (k : Nat) :
    run (k + 2) (s.withHost (.issue bytes :: later) phase) = run k (t.withHost later phase) := by
  obtain ⟨hissue, hnext⟩ := steps_of_issue (s := s.withHost (.issue bytes :: later) phase) hs hport hphase hone rfl
  rw [run_succ_of_step hissue, run_succ_of_step (hnext.trans (serve_withHost hserve later phase))]

/-- A run through commands issued one by one ends where serving them ends (R72, R238 H1). -/
theorem run_issues {cmds : List (List Byte)} (hall : ∀ bytes ∈ cmds, isOneCommand bytes = true) {s u : State}
    (hs : s.constructed = true) (hport : s.port = []) {phase : TickPhase} (hphase : phase ≠ .sampled)
    (hserve : serveAll cmds s = .next u) (later : List HostMove) (k : Nat) :
    run (2 * cmds.length + k) (s.withHost (cmds.map .issue ++ later) phase) = run k (u.withHost later phase) ∧
      u.constructed = true ∧ u.port = [] := by
  induction cmds generalizing s with
  | nil =>
    cases hserve
    exact ⟨by rw [List.length_nil, Nat.mul_zero, Nat.zero_add]; rfl, hs, hport⟩
  | cons bytes cmds ih =>
    obtain ⟨hone, hrest⟩ := List.forall_mem_cons.1 hall
    obtain ⟨st, data, mem, hfirst⟩ := serve_shape hone s
    rw [serveAll, hfirst] at hserve
    have hsteps : 2 * (bytes :: cmds).length + k = 2 * cmds.length + k + 2 := by
      rw [List.length_cons]
      omega
    rw [hsteps, List.map_cons, List.cons_append, run_issue hs hport hphase hone hfirst]
    exact ih hrest hs hport hserve

/-- The tick's start is its advance, issued and served (R237). -/
theorem run_startTick {s t : State} (hs : s.constructed = true) (hport : s.port = [])
    (hserve : serve (encode .advance) s = .next t) (later : List HostMove) (k : Nat) :
    run (k + 2) (s.withHost (.startTick :: later) .betweenTicks) = run k (t.withHost later .callbacks) := by
  have hstart : step (s.withHost (.startTick :: later) .betweenTicks) =
      .next { s.withHost later .callbacks with port := encode .advance } :=
    step_of_inItsPlace (m := .startTick) hs hport rfl rfl nofun
  have hnext : step { s.withHost later .callbacks with port := encode .advance } =
      serve (encode .advance) (s.withHost later .callbacks) := by
    rw [step_of_isOneCommand (s := { s.withHost later .callbacks with port := encode .advance }) hs
      (isOneCommand_encode rfl), ← hport]
    rfl
  rw [run_succ_of_step hstart, run_succ_of_step (hnext.trans (serve_withHost hserve later .callbacks))]

/-- The tick ends with the input sample and then the publish (R237). -/
theorem run_sampleInput_publish {u : State} (hs : u.constructed = true) (hport : u.port = []) (input : Vector Byte 58)
    (later : List HostMove) :
    run 2 (u.withHost (.sampleInput input :: .publish :: later) .callbacks) =
      .next (publish (sampleInput input { u with moves := later })) := by
  have hsample : step (u.withHost (.sampleInput input :: .publish :: later) .callbacks) =
      .next (sampleInput input (u.withHost (.publish :: later) .callbacks)) :=
    step_of_inItsPlace (m := .sampleInput input) hs hport rfl rfl nofun
  have hpublish : step (sampleInput input (u.withHost (.publish :: later) .callbacks)) =
      .next (publish (sampleInput input { u with moves := later })) :=
    step_of_inItsPlace (m := .publish) hs hport rfl rfl nofun
  rw [run_succ_of_step hsample, run_succ_of_step hpublish, run]

end Sys2Proof.Machine

/-- Settles O14: the start, the callbacks' commands, the sample and the publish, one run after the other. -/
theorem tickRunsInOrder : Obligations.TickRunsInOrder := by
  intro s update draw input later hs hport hphase hall hmoves
  have hcmds : ∀ bytes ∈ update ++ draw, isOneCommand bytes = true := fun bytes h =>
    (oneCommand_iff bytes).1 (hall bytes h)
  obtain ⟨st, data, mem, hadvance⟩ := serve_shape (isOneCommand_encode (i := .advance) rfl) s
  obtain ⟨u, hserve⟩ := serveAll_answers hcmds (respond st data (s.setMem mem))
  refine ⟨u, by rw [serveAll, hadvance]; exact hserve, ?_⟩
  have hplan : s.moves = .startTick :: ((update ++ draw).map .issue ++ (.sampleInput input :: .publish :: later)) := by
    simp [hmoves, tickMoves]
  have hhost : s = s.withHost
      (.startTick :: ((update ++ draw).map .issue ++ (.sampleInput input :: .publish :: later))) .betweenTicks := by
    rw [← hplan, ← hphase]
    rfl
  have hsteps : 2 * (1 + update.length + draw.length) + 2 = 2 * (update ++ draw).length + 2 + 2 := by
    rw [List.length_append]
    omega
  obtain ⟨hrun, hu, huport⟩ := run_issues hcmds (s := respond st data (s.setMem mem)) hs hport (phase := .callbacks)
    (by decide) hserve (.sampleInput input :: .publish :: later) 2
  rw [hhost, hsteps, run_startTick hs hport hadvance, hrun, run_sampleInput_publish hu huport]
end

section
/-! PROOF. The matrices of 20_memory.md section 4 and the invariant: a step writes only its row, so what no row holds
stays as reset left it, and the invariant goes through every step. -/

open Sys2Proof Sys2Proof.Machine Sys2Proof.Claims

namespace Sys2Proof.Claims

variable {s t : State}

/-! ## The rows of the write matrix -/

/-- PAL_BASE is fixed (R7). -/
theorem step_palBase (hstep : step s = .next t) : t.palBase = s.palBase := by
  rcases step_next_cases hstep with ⟨-, st, data, mem, rest, rfl⟩ | ⟨-, -, rfl⟩ | ⟨-, m, later, -, -, rfl⟩
  · rfl
  · rfl
  · cases m <;> rfl

/-- The rows of the write matrix over a step: a command's, the input sample's, and those that hold everything (R70). -/
theorem stepMayWrite_cases {a : Nat} (h : StepMayWrite s a) :
    (∃ i rest, fetch s = .instr i rest ∧ MayWrite s.palBase i a) ∨ (0x360E ≤ a ∧ a ≤ 0x3647) ∨ HostRebuilds s := by
  cases hfetch : fetch s with
  | instr i rest =>
    rw [stepMayWrite_of_instr hfetch] at h
    exact .inl ⟨i, rest, rfl, h⟩
  | illegal op rest =>
    rw [StepMayWrite, hfetch] at h
    exact h.elim
  | incomplete =>
    rw [StepMayWrite, hfetch] at h
    cases hmoves : s.moves with
    | nil =>
      rw [hmoves] at h
      exact h.elim
    | cons m later =>
      rw [hmoves] at h
      cases m with
      | sampleInput input => exact .inr (.inl h)
      | construct => exact .inr (.inr ⟨hfetch, .inl (by rw [hmoves]; rfl)⟩)
      | destroy => exact .inr (.inr ⟨hfetch, .inr (by rw [hmoves]; rfl)⟩)
      | issue | startTick | publish => exact h.elim

/-- Where the bytes are that nothing writes: the built-in sprites, the end of M, and the gap beside the palette-select
plane (R25, R70). -/
theorem neverWritten_bounds {pb : Config.PalBase} {a : Nat} (ha : NeverWritten pb a) :
    (0x3648 ≤ a ∧ a < 0x3F49) ∨ 0x6F49 ≤ a ∨ (0x2400 ≤ a ∧ a < palBaseAddr pb) ∨
      (palBaseAddr pb + 0x1200 ≤ a ∧ a ≤ 0x3600) := by
  rcases ha with ⟨hlo, hhi⟩ | hgap | rfl | ⟨hlo, -⟩
  · exact .inl ⟨hlo, hhi⟩
  · cases pb with
    | x2400 => exact .inr (.inr (.inr ⟨hgap.1, Nat.le_of_lt_succ hgap.2⟩))
    | x2401 => exact .inr (.inr (.inl hgap))
  · exact .inr (.inl le_rfl)
  · exact .inr (.inl (le_trans (by decide : 0x6F49 ≤ 0x6F4A) hlo))

/-- No command's row holds a byte that nothing writes (R70). -/
theorem not_mayWrite_of_neverWritten {pb : Config.PalBase} {i : Instr} {a : Nat} (ha : NeverWritten pb a) :
    ¬ MayWrite pb i a := by
  intro h
  have hbounds := neverWritten_bounds ha
  have hlow := palBaseAddr_ge pb
  have hhigh := palBaseAddr_le pb
  cases i
  case setPixel x y col =>
    obtain ⟨hon, hpixel⟩ := h
    unfold OnCanvas at hon
    omega
  case getPixel | getPalettes | frames => exact h.elim
  case drawRectBorder | fillRect | drawLine | clearScreen =>
    unfold MayWrite InPlanes at h
    omega
  case setPaletteA | setPaletteB | setBackground | setCamera | setClip | resetClip | advance | loadSpriteSheet =>
    unfold MayWrite at h
    omega

/-- BG is in the row of setBackground and of no other command (R29, R70). -/
theorem eq_setBackground_of_mayWrite_bg {pb : Config.PalBase} {i : Instr} (h : MayWrite pb i 0x3602) :
    ∃ col, i = .setBackground col := by
  have hbase := palBaseAddr_le pb
  cases i
  case setBackground col => exact ⟨col, rfl⟩
  case getPixel | getPalettes | frames => exact h.elim
  case setPixel x y col =>
    obtain ⟨hon, hpixel⟩ := h
    unfold OnCanvas at hon
    omega
  case drawRectBorder | fillRect | drawLine | clearScreen =>
    unfold MayWrite InPlanes at h
    omega
  case setPaletteA | setPaletteB | setCamera | setClip | resetClip | advance | loadSpriteSheet =>
    unfold MayWrite at h
    omega

/-! ## What every step keeps -/

/-- After construction, and after destruction, M reads as its reset contents (R46, R280). -/
theorem mem_of_hostRebuilds (h : HostRebuilds s) (hstep : step s = .next t) : t.mem = State.reset.mem := by
  obtain ⟨hfetch, hnext⟩ := h
  rcases step_next_cases hstep with ⟨hserved, -⟩ | ⟨-, hmoves, -⟩ | ⟨-, m, later, hmoves, -, rfl⟩
  · exact absurd hfetch hserved
  · simp [hmoves] at hnext
  · rw [hmoves, List.head?_cons, Option.some.injEq, Option.some.injEq] at hnext
    rcases hnext with rfl | rfl <;> rfl

/-- The bytes nothing writes keep their reset contents (R40, R41, R42). -/
theorem step_keeps_untouched (hinv : s.Inv) (hstep : step s = .next t) {a : Nat} (ha : NeverWritten s.palBase a) :
    t.mem.read a = State.reset.mem.read a := by
  by_cases hrow : StepMayWrite s a
  · rcases stepMayWrite_cases hrow with ⟨i, rest, -, hi⟩ | hinput | hrebuilds
    · exact absurd hi (not_mayWrite_of_neverWritten ha)
    · have hbounds := neverWritten_bounds ha
      have hhigh := palBaseAddr_le s.palBase
      omega
    · rw [mem_of_hostRebuilds hrebuilds hstep]
  · obtain ⟨-, hread⟩ := step_writesOnly hinv.wf hstep
    rw [hread a hrow, hinv.untouched a ha]

/-- The unassigned bits of BG as a number. -/
theorem State.bgLow_iff (s : State) : s.bg.extractLsb' 0 5 = 0 ↔ (s.mem.read 0x3602).toNat % 32 = 0 := by
  rw [← BitVec.toNat_inj, BitVec.extractLsb'_toNat, Nat.shiftRight_zero]
  rfl

/-- No command changes the unassigned bits of BG (R29, R143). -/
theorem exec_keeps_bgLow {i : Instr} (hs : s.mem.wf = true) (hexec : exec i s = .next t) :
    (t.mem.read 0x3602).toNat % 32 = (s.mem.read 0x3602).toNat % 32 := by
  by_cases hrow : MayWrite s.palBase i 0x3602
  · obtain ⟨col, rfl⟩ := eq_setBackground_of_mayWrite_bg hrow
    obtain ⟨-, heffect⟩ := setBackgroundWritesTheTopBits
    obtain ⟨u, hexec', -, -, hvalue, -⟩ := heffect s col hs
    cases hexec.symm.trans hexec'
    omega
  · obtain ⟨u, hexec', -, hread⟩ := exec_writesOnly i hs
    cases hexec.symm.trans hexec'
    rw [hread _ hrow]

theorem step_keeps_bgLow (hinv : s.Inv) (hstep : step s = .next t) : t.bg.extractLsb' 0 5 = 0 := by
  have hold := (State.bgLow_iff s).1 hinv.bgLow
  rw [State.bgLow_iff]
  by_cases hrow : StepMayWrite s 0x3602
  · rcases stepMayWrite_cases hrow with ⟨i, rest, hfetch, -⟩ | hinput | hrebuilds
    · rw [step_instr hfetch] at hstep
      exact (exec_keeps_bgLow (s := { s with port := rest }) hinv.wf hstep).trans hold
    · omega
    · rw [mem_of_hostRebuilds hrebuilds hstep]
      exact (State.bgLow_iff _).1 (by rw [State.reset_bg]; rfl)
  · obtain ⟨-, hread⟩ := step_writesOnly hinv.wf hstep
    rwa [hread _ hrow]

/-- A frame is a canonical copy that ends at FRAME_END (R236). -/
theorem frameOf_canonical (hs : s.mem.wf = true) :
    (frameOf s).wf = true ∧ ∀ c ∈ frameOf s, c.1 < frameEnd s.palBase :=
  ⟨Memory.wf_below hs, fun _ hc => of_decide_eq_true (List.mem_filter.1 hc).2⟩

/-- The frames published stay, and a publish adds the frame of M. -/
theorem step_published (hstep : step s = .next t) :
    t.published = s.published ∨ t.published = s.published ++ [frameOf s] := by
  rcases step_next_cases hstep with ⟨-, st, data, mem, rest, rfl⟩ | ⟨-, -, rfl⟩ | ⟨-, m, later, -, -, rfl⟩
  · exact .inl rfl
  · exact .inl rfl
  · cases m with
    | publish => exact .inr rfl
    | issue | startTick | sampleInput | construct | destroy => exact .inl rfl

theorem step_keeps_frames (hinv : s.Inv) (hstep : step s = .next t) :
    ∀ f ∈ t.published, f.wf = true ∧ ∀ c ∈ f, c.1 < frameEnd t.palBase := by
  rw [step_palBase hstep]
  rcases step_published hstep with hsame | hnew
  · rw [hsame]
    exact hinv.frames
  · rw [hnew, List.forall_mem_append, List.forall_mem_singleton]
    exact ⟨hinv.frames, frameOf_canonical hinv.wf⟩

/-- A step leaves the port empty or with exactly one command (R238 H1). -/
theorem step_keeps_port (hinv : s.Inv) (hstep : step s = .next t) : t.port = [] ∨ isOneCommand t.port = true := by
  rcases step_next_cases hstep with ⟨hfetch, -⟩ | ⟨-, -, rfl⟩ | ⟨-, m, later, -, hduty, rfl⟩
  · have hs : s.constructed = true := by_contra fun h => hfetch (fetch_of_not_constructed (Bool.eq_false_iff.2 h))
    rcases hinv.port with hport | hport
    · exact absurd (fetch_of_port_nil hport) hfetch
    · obtain ⟨st, data, mem, hserve⟩ := serve_shape hport { s with port := [] }
      cases hstep.symm.trans ((step_of_isOneCommand hs hport).trans hserve)
      exact .inl rfl
  · exact hinv.port
  · cases m with
    | issue bytes =>
      obtain ⟨-, -, hone, -⟩ := brokenDuty_eq_none.1 hduty
      exact .inr hone
    | startTick => exact .inr (isOneCommand_encode rfl)
    | sampleInput | publish => exact hinv.port
    | construct | destroy => exact .inl rfl

end Sys2Proof.Claims

/-- Settles O18: the write matrix over a step, and PAL_BASE. -/
theorem stepWritesOnlyItsRow : Obligations.StepWritesOnlyItsRow :=
  fun _ _ hs hstep => ⟨step_palBase hstep, step_writesOnly hs hstep⟩

/-- Settles O16: clause by clause. -/
theorem stepKeepsTheInvariant : Obligations.StepKeepsTheInvariant := by
  intro s t hinv hstep
  obtain ⟨hwf, -⟩ := step_writesOnly hinv.wf hstep
  exact
    { wf := hwf
      untouched := fun a ha => step_keeps_untouched hinv hstep (step_palBase hstep ▸ ha)
      bgLow := step_keeps_bgLow hinv hstep
      frames := step_keeps_frames hinv hstep
      port := step_keeps_port hinv hstep }

/-- Settles O17: at reset nothing is written, published or on the port. -/
theorem resetMeetsTheInvariant : Obligations.ResetMeetsTheInvariant where
  wf := rfl
  untouched _ _ := rfl
  bgLow := by
    rw [State.reset_bg]
    rfl
  frames := nofun
  port := .inl rfl

/-- Settles O19: the read matrix, command by command. -/
theorem commandsReadOnlyWhatTheyConsult : Obligations.CommandsReadOnlyWhatTheyConsult := by
  intro i s s' hs hs' hbase hread
  obtain ⟨st, data, n, n', hexec, hexec', hkeep⟩ := exec_congr i hs hs' hbase hread
  exact ⟨_, _, st, data, hexec, hexec', answers_respond_setMem s n st data, answers_respond_setMem s' n' st data, hkeep⟩
end

section
/-! PROOF. The address map (10_state.md sections 2 and 6) and the plane addresses (20_memory.md section 3). -/

open Sys2Proof Sys2Proof.Machine Sys2Proof.Claims

namespace Sys2Proof.Machine

/-- The rows of the region table by rising addresses; the gap stands on one side or the other of the palette-select
plane (R25). -/
def regionsInOrder (pb : Config.PalBase) : List Region :=
  .colourPlane :: (match pb with | .x2400 => [.palettePlane, .gap] | .x2401 => [.gap, .palettePlane]) ++
    [.pal, .bg, .camX, .camY, .frames, .clip, .mouse, .mouseButtons, .keys, .builtinSprites, .userSprites, .upper]

theorem mem_regionsInOrder (pb : Config.PalBase) (r : Region) : r ∈ regionsInOrder pb := by
  cases pb <;> cases r <;> decide

/-- The rows follow one another from `lo` to `hi`: "each range starts one past the end of the previous one". -/
def Tiles (pb : Config.PalBase) : Nat → List Region → Nat → Prop
  | lo, [], hi => lo = hi
  | lo, r :: rs, hi => r.first pb = lo ∧ Tiles pb (lo + r.size) rs hi

theorem tiles_regionsInOrder (pb : Config.PalBase) : Tiles pb 0 (regionsInOrder pb) 0x10000 := by
  cases pb <;> simp [regionsInOrder, Tiles, Region.first, Region.size, palBaseAddr]

theorem Tiles.le {pb : Config.PalBase} {lo hi : Nat} {rs : List Region} (h : Tiles pb lo rs hi) : lo ≤ hi := by
  induction rs generalizing lo with
  | nil => exact Nat.le_of_eq h
  | cons r rs ih => exact (Nat.le_add_right lo r.size).trans (ih h.2)

/-- What a row of a tiling holds lies between its ends. -/
theorem Tiles.bounds {pb : Config.PalBase} {lo hi a : Nat} {rs : List Region} (h : Tiles pb lo rs hi) {r : Region}
    (hr : r ∈ rs) (ha : r.holds pb a) : lo ≤ a ∧ a < hi := by
  induction rs generalizing lo with
  | nil => cases hr
  | cons r' rs ih =>
    obtain ⟨hfirst, hrest⟩ := h
    rcases List.mem_cons.1 hr with rfl | hr
    · obtain ⟨hlo, hhi⟩ := ha
      have hend := hrest.le
      omega
    · obtain ⟨hlo, hhi⟩ := ih hrest hr
      omega

/-- A tiling holds every address between its ends in exactly one row. -/
theorem Tiles.existsUnique {pb : Config.PalBase} {lo hi a : Nat} {rs : List Region} (h : Tiles pb lo rs hi)
    (hlo : lo ≤ a) (hhi : a < hi) : ∃! r, r ∈ rs ∧ r.holds pb a := by
  induction rs generalizing lo with
  | nil =>
    cases h
    omega
  | cons r rs ih =>
    obtain ⟨rfl, hrest⟩ := h
    by_cases ha : a < r.first pb + r.size
    · refine ⟨r, ⟨List.mem_cons_self, hlo, ha⟩, fun r' ⟨hr', ha'⟩ => ?_⟩
      rcases List.mem_cons.1 hr' with rfl | hr'
      · rfl
      · obtain ⟨hbehind, -⟩ := hrest.bounds hr' ha'
        omega
    · obtain ⟨r', ⟨hr', ha'⟩, hunique⟩ := ih hrest (by omega)
      refine ⟨r', ⟨List.mem_cons_of_mem r hr', ha'⟩, fun r'' ⟨hr'', ha''⟩ => ?_⟩
      rcases List.mem_cons.1 hr'' with rfl | hr''
      · exact absurd ha''.2 ha
      · exact hunique r'' ⟨hr'', ha''⟩

/-- A slot of a colour-plane byte as a pixel: four columns to a byte, 48 bytes to a row (R62, R67). -/
theorem colourSlot_iff {a k x y : Nat} (ha : a < 0x2400) (hk : k < 4) :
    (x < 192 ∧ y < 192 ∧ colourAddr x y = a ∧ colourShift x = 2 * k) ↔ x = 4 * (a % 48) + k ∧ y = a / 48 := by
  unfold colourAddr colourShift
  omega

/-- A bit of a palette-plane byte as a pixel: eight columns to a byte, 24 bytes to a row (R63, R67). -/
theorem bankBit_iff {pb : Config.PalBase} {a k x y : Nat} (hlo : palBaseAddr pb ≤ a) (hhi : a < palBaseAddr pb + 0x1200)
    (hk : k < 8) :
    (x < 192 ∧ y < 192 ∧ bankAddr pb x y = a ∧ bankShift x = k) ↔
      x = 8 * ((a - palBaseAddr pb) % 24) + k ∧ y = (a - palBaseAddr pb) / 24 := by
  unfold bankAddr bankShift
  omega

end Sys2Proof.Machine

/-- Settles O22: the rows in order are a tiling of 0x0000 to 0xFFFF. -/
theorem regionsPartitionM : Obligations.RegionsPartitionM := by
  intro pb a
  have htiles := tiles_regionsInOrder pb
  refine ⟨fun ha => ?_, fun ⟨r, hr⟩ => (htiles.bounds (mem_regionsInOrder pb r) hr).2⟩
  simpa only [mem_regionsInOrder, true_and] using htiles.existsUnique (Nat.zero_le a) ha

/-- Settles O24: the pixel of a slot and the pixel of a bit, by division. -/
theorem planeAddressesCoverThePlanes : Obligations.PlaneAddressesCoverThePlanes := by
  refine ⟨fun a k ha hk => ⟨(4 * (a % 48) + k, a / 48), ?_, fun p hp => ?_⟩,
    fun pb a k hlo hhi hk => ⟨(8 * ((a - palBaseAddr pb) % 24) + k, (a - palBaseAddr pb) / 24), ?_, fun p hp => ?_⟩,
    fun pb x y hx hy => ⟨colourAddr_lt hx hy, bankAddr_bounds pb hx hy⟩⟩
  · exact (colourSlot_iff ha hk).2 ⟨rfl, rfl⟩
  · exact Prod.ext_iff.2 ((colourSlot_iff ha hk).1 hp)
  · exact (bankBit_iff hlo hhi hk).2 ⟨rfl, rfl⟩
  · exact Prod.ext_iff.2 ((bankBit_iff hlo hhi hk).1 hp)
end

section
/-! PROOF. Pixels apart (40_pixel_codec.md section 5, 43_rasterizer.md section 1): the round trip, the isolation of the
other pixels, and with both that only the set of the plotted pixels counts. -/

open Sys2Proof Sys2Proof.Machine Sys2Proof.Claims

namespace Sys2Proof.Claims

/-- What setPixel paints and writes, from O25 (R121). -/
theorem exec_setPixel_paints {s : State} (hs : s.mem.wf = true) (x y : Field) (col : Byte) :
    ∃ t, exec (.setPixel x y col) s = .next t ∧ t.responses = s.responses ++ [⟨.ok, 0⟩] ∧ t.palBase = s.palBase ∧
      Paints s t (fun rx ry => rx = x.toInt ∧ ry = y.toInt) col ∧
      WritesOnly s t (MayWrite s.palBase (.setPixel x y col)) := by
  obtain ⟨-, heffect⟩ := setPixelPaintsOnePixel
  obtain ⟨t, hexec, ⟨hresp, hbase, -⟩, hpaints, hwrites, -⟩ := heffect s x y col hs
  exact ⟨t, hexec, hresp, hbase, hpaints, hwrites⟩

/-- The response of getPixel depends on the pixel's colour only (R123). -/
theorem exec_getPixel_congr {s t : State} {x y : Field}
    (h : OnCanvas x.toInt y.toInt → colourAt t x.toInt.toNat y.toInt.toNat = colourAt s x.toInt.toNat y.toInt.toNat) :
    ∃ u v, exec (.getPixel x y) t = .next u ∧ exec (.getPixel x y) s = .next v ∧
      u.responses.getLast? = v.responses.getLast? := by
  by_cases hon : OnCanvas x.toInt y.toInt
  · refine ⟨_, _, exec_getPixel_of_onCanvas t hon, exec_getPixel_of_onCanvas s hon, ?_⟩
    rw [List.getLast?_concat, List.getLast?_concat, h hon]
  · refine ⟨_, _, exec_getPixel_of_not_onCanvas t hon, exec_getPixel_of_not_onCanvas s hon, ?_⟩
    rw [reject_responses, reject_responses, List.getLast?_concat, List.getLast?_concat]

end Sys2Proof.Claims

/-- Settles O27: setPixel paints its pixel, and getPixel answers a pixel's colour. -/
theorem setPixelGetPixelRoundTrip : Obligations.SetPixelGetPixelRoundTrip := by
  intro s x y col hs hon
  obtain ⟨t, hexec, hresp, -, ⟨-, hcolour⟩, -, hread⟩ := exec_setPixel_paints hs x y col
  obtain ⟨hx, hy⟩ := inCanvas_toNat (inCanvas_iff.2 hon)
  obtain ⟨hset, -⟩ := hcolour _ _ hx hy
  refine ⟨t, _, hexec, exec_getPixel_of_onCanvas t hon, ?_, fun a hindex hbank => hread a ?_⟩
  · rw [hset (by unfold OnCanvas at hon; omega), hresp, List.append_assoc]
    rfl
  · rintro ⟨-, h | h⟩
    · exact hindex h
    · exact hbank h

/-- Settles O28: another pair of operands is another canvas pixel, whose colour is kept, or off the canvas. -/
theorem setPixelLeavesOtherPixelsAlone : Obligations.SetPixelLeavesOtherPixelsAlone := by
  intro s x y x' y' col hs hne
  obtain ⟨t, hexec, -, -, ⟨-, hcolour⟩, -⟩ := exec_setPixel_paints hs x y col
  obtain ⟨u, v, hu, hv, hlast⟩ := exec_getPixel_congr (s := s) (t := t) (x := x') (y := y') fun hon => by
    obtain ⟨hx, hy⟩ := inCanvas_toNat (inCanvas_iff.2 hon)
    obtain ⟨-, hkept⟩ := hcolour _ _ hx hy
    refine hkept fun ⟨hX, hY⟩ => hne ?_
    rw [Int.toNat_of_nonneg (by unfold OnCanvas at hon; omega)] at hX hY
    exact Prod.ext (BitVec.eq_of_toInt_eq hX) (BitVec.eq_of_toInt_eq hY)
  exact ⟨t, u, v, hexec, hu, hv, hlast⟩

/-- Settles O42: a canonical memory is its picture and its bytes outside the planes. -/
theorem plottingDependsOnTheSetOnly : Obligations.PlottingDependsOnTheSetOnly := by
  intro pb col ps qs m hm hset
  refine Memory.ext_of_picture (pb := pb) (wf_plotAll hm) (wf_plotAll hm) (fun x y hx hy => ?_) fun a ha => ?_
  · have hmem : ((x : Int), (y : Int)) ∈ ps ↔ ((x : Int), (y : Int)) ∈ qs := hset x y (by unfold OnCanvas; omega)
    rw [peek_plotAll hm hx hy, peek_plotAll hm hx hy]
    simp only [hmem]
  · rw [read_plotAll_outside hm ha, read_plotAll_outside hm ha]
end

section
/-! PROOF. The line's interpolation (43_rasterizer.md section 4, R186 to R188): LineY is a floor, and its properties are
those of the floor of a quotient. -/

open Sys2Proof Sys2Proof.Machine Sys2Proof.Claims

namespace Sys2Proof.Machine

section
variable {y1 dy dx k : Int}

/-- LineY through the floor of the exact quotient (R188; D12). -/
theorem lineY_eq_floor (hdx : 0 < dx) : lineY y1 dy dx k = y1 + ⌊((dy * k : Int) : ℚ) / (dx : ℚ)⌋ := by
  lift dx to ℕ using hdx.le
  rw [lineY, Int.cast_natCast, Rat.floor_intCast_div_natCast]

/-- Rising with `k` for a line that rises (R188). -/
theorem lineY_mono (hdx : 0 < dx) (hdy : 0 ≤ dy) {k' : Int} (hk : k ≤ k') : lineY y1 dy dx k ≤ lineY y1 dy dx k' :=
  Int.add_le_add_left (Int.ediv_le_ediv hdx (Int.mul_le_mul_of_nonneg_left hk hdy)) y1

/-- Falling with `k` for a line that falls (R188). -/
theorem lineY_anti (hdx : 0 < dx) (hdy : dy ≤ 0) {k' : Int} (hk : k ≤ k') : lineY y1 dy dx k' ≤ lineY y1 dy dx k :=
  Int.add_le_add_left (Int.ediv_le_ediv hdx (Int.mul_le_mul_of_nonpos_left hdy hk)) y1

theorem lineY_zero (y1 dy dx : Int) : lineY y1 dy dx 0 = y1 := by simp [lineY]

theorem lineY_add (y1 dy dx k t : Int) : lineY (y1 + t) dy dx k = lineY y1 dy dx k + t := by
  unfold lineY
  omega

theorem lineY_flat (y1 dx k : Int) : lineY y1 0 dx k = y1 := by simp [lineY]

theorem lineY_diagonal (hdx : 0 < dx) : lineY y1 dx dx k = y1 + k := by
  rw [lineY, Int.mul_ediv_cancel_left k hdx.ne']

/-- At the far end LineY would be the far end's row. -/
theorem lineY_end (hdx : 0 < dx) : lineY y1 dy dx dx = y1 + dy := by
  rw [lineY, Int.mul_ediv_cancel _ hdx.ne']

/-- Before the far end a rising line stays below the far end's row (R188). -/
theorem lineY_bounds_of_rising (hdy : 0 < dy) (hk : 0 ≤ k) (hkdx : k < dx) :
    y1 ≤ lineY y1 dy dx k ∧ lineY y1 dy dx k ≤ y1 + dy - 1 := by
  have hdx : 0 < dx := by omega
  have hstart := lineY_mono (y1 := y1) hdx hdy.le hk
  have hlast : dy * k / dx < dy := Int.ediv_lt_of_lt_mul hdx (Int.mul_lt_mul_of_pos_left hkdx hdy)
  rw [lineY_zero] at hstart
  exact ⟨hstart, by unfold lineY; omega⟩

/-- A falling line stays between its end's rows (R188). -/
theorem lineY_bounds_of_falling (hdx : 0 < dx) (hdy : dy ≤ 0) (hk : 0 ≤ k) (hkdx : k ≤ dx) :
    y1 + dy ≤ lineY y1 dy dx k ∧ lineY y1 dy dx k ≤ y1 := by
  have hstart := lineY_anti (y1 := y1) hdx hdy hk
  have hend := lineY_anti (y1 := y1) hdx hdy hkdx
  rw [lineY_zero] at hstart
  rw [lineY_end hdx] at hend
  exact ⟨hend, hstart⟩

end

/-! ## The loop of drawLine, branch by branch -/

section
variable {x1 x2 y1 y2 : Int} (cx cy : Int)

theorem lineLoop_of_lt (h : x1 < x2) : lineLoop x1 y1 x2 y2 cx cy = wideLoop x1 y1 x2 y2 cx cy := by
  rw [lineLoop, if_pos h.ne, if_neg h.not_gt]

theorem lineLoop_of_gt (h : x2 < x1) : lineLoop x1 y1 x2 y2 cx cy = wideLoop x2 y2 x1 y1 cx cy := by
  rw [lineLoop, if_pos h.ne', if_pos h]

theorem lineLoop_vertical (x y1 y2 : Int) : lineLoop x y1 x y2 cx cy = tallLoop x (min y1 y2) (max y1 y2) cx cy := by
  rw [lineLoop, if_neg (not_not.2 rfl)]
  split_ifs with h
  · rw [min_eq_right h.le, max_eq_left h.le]
  · rw [min_eq_left (not_lt.1 h), max_eq_right (not_lt.1 h)]

/-- The columns of a wide line (R187). -/
theorem map_fst_wideLoop (x1 y1 x2 y2 : Int) :
    (wideLoop x1 y1 x2 y2 cx cy).map (fun p => p.1 + cx) = forRange x1 (x2 - 1) := by
  simp [wideLoop, Function.comp_def]

/-- The rows of a vertical line (R187). -/
theorem map_snd_tallLoop (x y1 y2 : Int) :
    (tallLoop x y1 y2 cx cy).map (fun p => p.2 + cy) = forRange y1 (y2 - 1) := by
  simp [tallLoop, Function.comp_def]

/-- Swapped end points give the same pixels (R187). -/
theorem lineLoop_swap (x1 y1 x2 y2 : Int) : lineLoop x1 y1 x2 y2 cx cy = lineLoop x2 y2 x1 y1 cx cy := by
  rcases lt_trichotomy x1 x2 with h | rfl | h
  · rw [lineLoop_of_lt cx cy h, lineLoop_of_gt cx cy h]
  · rw [lineLoop_vertical, lineLoop_vertical, min_comm, max_comm]
  · rw [lineLoop_of_gt cx cy h, lineLoop_of_lt cx cy h]

/-- The columns of a line that is not vertical, from the smaller x to the larger minus 1 (R187). -/
theorem map_fst_lineLoop (h : x1 ≠ x2) :
    (lineLoop x1 y1 x2 y2 cx cy).map (fun p => p.1 + cx) = forRange (min x1 x2) (max x1 x2 - 1) := by
  rcases lt_or_gt_of_ne h with h | h
  · rw [lineLoop_of_lt cx cy h, map_fst_wideLoop, min_eq_left h.le, max_eq_right h.le]
  · rw [lineLoop_of_gt cx cy h, map_fst_wideLoop, min_eq_right h.le, max_eq_left h.le]

/-- A list whose images are a run from the smaller of two numbers to the larger minus 1 is as long as they are apart. -/
theorem length_of_map_eq_forRange {ps : List (Int × Int)} {f : Int × Int → Int} {a b : Int}
    (h : ps.map f = forRange (min a b) (max a b - 1)) : (ps.length : Int) = |b - a| := by
  have hlength := congrArg List.length h
  rw [List.length_map, length_forRange] at hlength
  rw [hlength, ← max_sub_min_eq_abs]
  omega

end

/-- Two fields are at most 65535 apart, and so is a column of a line from its first, so their product stays below 2^32
(R187). -/
theorem abs_mul_lt_of_fields {x1 y1 x2 y2 : Field} {x : Int} (hlo : x1.toInt ≤ x) (hhi : x < x2.toInt) :
    |(y2.toInt - y1.toInt) * (x - x1.toInt)| < 2 ^ 32 := by
  have hx1 := BitVec.le_toInt x1
  have hx2 := BitVec.toInt_lt (x := x2)
  have hy1 := BitVec.le_toInt y1
  have hy1' := BitVec.toInt_lt (x := y1)
  have hy2 := BitVec.le_toInt y2
  have hy2' := BitVec.toInt_lt (x := y2)
  have hdy : |y2.toInt - y1.toInt| ≤ 65535 := by
    rw [abs_le]
    omega
  have hdx : |x - x1.toInt| ≤ 65535 := by
    rw [abs_le]
    omega
  calc |(y2.toInt - y1.toInt) * (x - x1.toInt)|
      = |y2.toInt - y1.toInt| * |x - x1.toInt| := abs_mul _ _
    _ ≤ 65535 * 65535 := mul_le_mul hdy hdx (abs_nonneg _) (by decide)
    _ < 2 ^ 32 := by decide

end Sys2Proof.Machine

/-- Settles O43: LineY's quotient at its ends, and its monotony between them. -/
theorem lineYProperties : Obligations.LineYProperties := by
  refine ⟨fun _ _ _ _ hdx => lineY_eq_floor hdx, fun y1 dy dx k hdx hk hkdx => ?_, by decide⟩
  exact ⟨lineY_zero y1 dy dx, lineY_add y1 dy dx k, lineY_flat y1 dx k, lineY_diagonal hdx,
    fun hdy => lineY_bounds_of_rising hdy hk hkdx, fun hdy => lineY_bounds_of_falling hdx hdy.le hk hkdx.le,
    fun k' hkk' _ => ⟨fun hdy => lineY_mono hdx hdy hkk', fun hdy => lineY_anti hdx hdy hkk'⟩⟩

/-- Settles O44: the columns or the rows of a line are a run, and swapped end points name the same branch. -/
theorem linesCountTheirPixels : Obligations.LinesCountTheirPixels := by
  refine ⟨fun x1 y1 x2 y2 cx cy h => ?columns, fun x y1 y2 cx cy => ?rows,
    fun x1 y1 x2 y2 cx cy => lineLoop_swap cx cy x1 y1 x2 y2, fun _ _ _ _ _ => abs_mul_lt_of_fields, by decide, by decide⟩
  case columns =>
    have hcolumns := map_fst_lineLoop (y1 := y1) (y2 := y2) cx cy h
    exact ⟨hcolumns, length_of_map_eq_forRange hcolumns⟩
  case rows =>
    have hrows := map_snd_tallLoop cx cy x (min y1 y2) (max y1 y2)
    rw [lineLoop_vertical]
    exact ⟨hrows, length_of_map_eq_forRange hrows⟩
end

section
/-! PROOF. What the drawing commands paint, as sets of pixels (43_rasterizer.md sections 3, 4 and 6, 42_viewport.md
R163): the pixels of each loop, by their coordinates. -/

open Sys2Proof Sys2Proof.Machine Sys2Proof.Claims

namespace Sys2Proof.Machine

section
variable {x y w h x1 y1 x2 y2 cx cy : Int} {p : Int × Int}

/-! ## The pixels of a loop -/

theorem mem_fillLoop : p ∈ fillLoop x y w h cx cy ↔
    x - cx ≤ p.1 ∧ p.1 ≤ x - cx + w - 1 ∧ y - cy ≤ p.2 ∧ p.2 ≤ y - cy + h - 1 := by
  obtain ⟨rx, ry⟩ := p
  simp only [fillLoop, List.mem_flatMap, List.mem_map, mem_forRange, Prod.mk.injEq]
  constructor
  · rintro ⟨j, hj, i, hi, rfl, rfl⟩
    omega
  · intro hp
    exact ⟨ry + cy - y, by omega, rx + cx - x, by omega, by omega, by omega⟩

theorem mem_borderLoop : p ∈ borderLoop x y w h cx cy ↔ p ∈ fillLoop x y w h cx cy ∧
    (p.1 = x - cx ∨ p.1 = x - cx + w - 1 ∨ p.2 = y - cy ∨ p.2 = y - cy + h - 1) := by
  rw [borderLoop_eq_filter_fillLoop, List.mem_filter, onBorder, decide_eq_true_iff]

theorem mem_wideLoop : p ∈ wideLoop x1 y1 x2 y2 cx cy ↔ x1 ≤ p.1 + cx ∧ p.1 + cx ≤ x2 - 1 ∧
    p.2 + cy = lineY y1 (y2 - y1) (x2 - x1) (p.1 + cx - x1) := by
  obtain ⟨rx, ry⟩ := p
  simp only [wideLoop, List.mem_map, mem_forRange, Prod.mk.injEq]
  constructor
  · rintro ⟨v, hv, rfl, rfl⟩
    rw [Int.sub_add_cancel, Int.sub_add_cancel]
    exact ⟨hv.1, hv.2, rfl⟩
  · rintro ⟨hlo, hhi, hrow⟩
    exact ⟨rx + cx, ⟨hlo, hhi⟩, by omega, by omega⟩

theorem mem_tallLoop : p ∈ tallLoop x y1 y2 cx cy ↔ p.1 + cx = x ∧ y1 ≤ p.2 + cy ∧ p.2 + cy ≤ y2 - 1 := by
  obtain ⟨rx, ry⟩ := p
  simp only [tallLoop, List.mem_map, mem_forRange, Prod.mk.injEq]
  constructor
  · rintro ⟨v, hv, rfl, rfl⟩
    omega
  · intro hp
    exact ⟨ry + cy, by omega, by omega, by omega⟩

/-! ## How far a line reaches -/

/-- Between its ends a line lies no lower than the lower one (R188). -/
theorem lineY_le_max {dx k : Int} (hk : 0 ≤ k) (hkdx : k < dx) : lineY y1 (y2 - y1) dx k ≤ max y1 y2 := by
  rcases lt_or_ge y1 y2 with hrise | hfall
  · obtain ⟨-, hhi⟩ := lineY_bounds_of_rising (y1 := y1) (dy := y2 - y1) (by omega) hk hkdx
    omega
  · obtain ⟨-, hhi⟩ := lineY_bounds_of_falling (y1 := y1) (dy := y2 - y1) (by omega) (by omega) hk hkdx.le
    omega

theorem wideLoop_bounds (hp : p ∈ wideLoop x1 y1 x2 y2 cx cy) :
    p.1 + cx < x2 ∧ p.2 + cy ≤ max y1 y2 := by
  obtain ⟨hlo, hhi, hrow⟩ := mem_wideLoop.1 hp
  rw [hrow]
  exact ⟨by omega, lineY_le_max (by omega) (by omega)⟩

/-- No pixel of a line lies right of its right end or below its lower end. -/
theorem lineLoop_bounds (hp : p ∈ lineLoop x1 y1 x2 y2 cx cy) :
    p.1 + cx ≤ max x1 x2 ∧ p.2 + cy ≤ max y1 y2 := by
  rcases lt_trichotomy x1 x2 with hlt | rfl | hgt
  · rw [lineLoop_of_lt cx cy hlt] at hp
    have hbounds := wideLoop_bounds hp
    omega
  · rw [lineLoop_vertical] at hp
    have hbounds := mem_tallLoop.1 hp
    omega
  · rw [lineLoop_of_gt cx cy hgt] at hp
    have hbounds := wideLoop_bounds hp
    omega

end

/-- Plotting a list with no canvas pixel changes nothing (R120). -/
theorem plotAll_of_off {ps : List (Int × Int)} (hoff : ∀ p ∈ ps, inCanvas p.1 p.2 = false) (pb : Config.PalBase)
    (col : Byte) (m : Memory) : plotAll pb col ps m = m := by
  have hnone : ps.filter (fun p => inCanvas p.1 p.2) = [] :=
    List.filter_eq_nil_iff.2 fun p hp => Bool.eq_false_iff.1 (hoff p hp)
  rw [← plotAll_filter, hnone, plotAll_nil]

theorem inCanvas_eq_false {rx ry : Int} (h : rx < 0 ∨ ry < 0) : inCanvas rx ry = false := by
  rw [Bool.eq_false_iff, ne_eq, inCanvas_iff]
  omega

end Sys2Proof.Machine

namespace Sys2Proof.Claims

/-! ## The meanings as their loops, from O36 to O38 -/

section
variable (s : State) (x y w h x1 y1 x2 y2 : Field) (col : Byte)

theorem exec_fillRect_loop : exec (.fillRect x y w h col) s = .next (respond .ok 0 (s.setMem
    (plotAll s.palBase col (fillLoop x.toInt y.toInt w.toInt h.toInt s.camX s.camY) s.mem))) :=
  fillRectIsItsLoop.2 s x y w h col

theorem exec_drawRectBorder_loop : exec (.drawRectBorder x y w h col) s = .next (respond .ok 0 (s.setMem
    (plotAll s.palBase col (borderLoop x.toInt y.toInt w.toInt h.toInt s.camX s.camY) s.mem))) :=
  drawRectBorderIsItsLoop.2.1 s x y w h col

theorem exec_drawLine_loop : exec (.drawLine x1 y1 x2 y2 col) s = .next (respond .ok 0 (s.setMem
    (plotAll s.palBase col (lineLoop x1.toInt y1.toInt x2.toInt y2.toInt s.camX s.camY) s.mem))) :=
  drawLineIsItsLoop.2 s x1 y1 x2 y2 col

/-! ## The painted sets -/

theorem inBox_iff (rx ry : Int) :
    InBox s x y w h rx ry ↔ (rx, ry) ∈ fillLoop x.toInt y.toInt w.toInt h.toInt s.camX s.camY :=
  (mem_fillLoop (p := (rx, ry))).symm

theorem onBorder_iff (rx ry : Int) :
    OnBorder s x y w h rx ry ↔ (rx, ry) ∈ borderLoop x.toInt y.toInt w.toInt h.toInt s.camX s.camY := by
  rw [mem_borderLoop, ← inBox_iff, OnBorder]

theorem onWideLine_iff {xa ya xb yb : Int} (hlt : xa < xb) (rx ry : Int) :
    OnWideLine s xa ya xb yb rx ry ↔ (rx, ry) ∈ wideLoop xa ya xb yb s.camX s.camY := by
  rw [mem_wideLoop, lineY_eq_floor (by omega), OnWideLine]

theorem onLine_iff (rx ry : Int) :
    OnLine s x1 y1 x2 y2 rx ry ↔ (rx, ry) ∈ lineLoop x1.toInt y1.toInt x2.toInt y2.toInt s.camX s.camY := by
  rw [OnLine]
  split_ifs with hlt hgt
  · rw [lineLoop_of_lt _ _ hlt, onWideLine_iff s hlt]
  · rw [lineLoop_of_gt _ _ hgt, onWideLine_iff s hgt]
  · obtain hx : x1.toInt = x2.toInt := by omega
    rw [hx, lineLoop_vertical, mem_tallLoop]

variable {s} (hs : s.mem.wf = true)
include hs

/-- A box is painted (R184, R185). -/
theorem exec_fillRect_paints : ∃ t, exec (.fillRect x y w h col) s = .next t ∧ Answers s t .ok 0 ∧
    Paints s t (InBox s x y w h) col :=
  ⟨_, exec_fillRect_loop s x y w h col, answers_respond_setMem s _ .ok 0,
    paints_plotAll hs (fun rx ry _ _ => inBox_iff s x y w h rx ry) col .ok 0⟩

/-- A box's border is painted (R182, R185). -/
theorem exec_drawRectBorder_paints : ∃ t, exec (.drawRectBorder x y w h col) s = .next t ∧ Answers s t .ok 0 ∧
    Paints s t (OnBorder s x y w h) col :=
  ⟨_, exec_drawRectBorder_loop s x y w h col, answers_respond_setMem s _ .ok 0,
    paints_plotAll hs (fun rx ry _ _ => onBorder_iff s x y w h rx ry) col .ok 0⟩

/-- A line is painted (R186). -/
theorem exec_drawLine_paints : ∃ t, exec (.drawLine x1 y1 x2 y2 col) s = .next t ∧ Answers s t .ok 0 ∧
    Paints s t (OnLine s x1 y1 x2 y2) col :=
  ⟨_, exec_drawLine_loop s x1 y1 x2 y2 col, answers_respond_setMem s _ .ok 0,
    paints_plotAll hs (fun rx ry _ _ => onLine_iff s x1 y1 x2 y2 rx ry) col .ok 0⟩

end

/-! ## Operands and camera moved together -/

/-- The same set painted on the same picture gives the same picture. -/
theorem samePicture_of_paints {s t s' t' : State} {S S' : Int → Int → Prop} {col : Byte} (hpaints : Paints s t S col)
    (hpaints' : Paints s' t' S' col) (hsame : SamePicture s s') (hset : ∀ rx ry, S' rx ry ↔ S rx ry) :
    SamePicture t t' := by
  intro x y hx hy
  obtain ⟨-, hcolour⟩ := hpaints
  obtain ⟨-, hcolour'⟩ := hpaints'
  obtain ⟨hin, hout⟩ := hcolour x y hx hy
  obtain ⟨hin', hout'⟩ := hcolour' x y hx hy
  by_cases hS : S x y
  · rw [hin hS, hin' ((hset x y).2 hS)]
  · rw [hout hS, hout' (mt (hset x y).1 hS), hsame x y hx hy]

section
variable {s s' : State} {dx dy : Int} (hcamX : (s'.camX : Int) = s.camX + dx) (hcamY : (s'.camY : Int) = s.camY + dy)
include hcamX hcamY

theorem onWideLine_shift (xa ya xb yb rx ry : Int) :
    OnWideLine s' (xa + dx) (ya + dy) (xb + dx) (yb + dy) rx ry ↔ OnWideLine s xa ya xb yb rx ry := by
  have hrow : yb + dy - (ya + dy) = yb - ya := by omega
  have hcolumn : rx + s'.camX - (xa + dx) = rx + s.camX - xa := by omega
  have hspan : xb + dx - (xa + dx) = xb - xa := by omega
  rw [OnWideLine, OnWideLine, hrow, hcolumn, hspan]
  omega

variable {x y x' y' : Field} (hx : x'.toInt = x.toInt + dx) (hy : y'.toInt = y.toInt + dy)
include hx hy

theorem inBox_shift (w h : Field) (rx ry : Int) : InBox s' x' y' w h rx ry ↔ InBox s x y w h rx ry := by
  unfold InBox
  omega

theorem onBorder_shift (w h : Field) (rx ry : Int) : OnBorder s' x' y' w h rx ry ↔ OnBorder s x y w h rx ry := by
  refine and_congr (inBox_shift hcamX hcamY hx hy w h rx ry) ?_
  omega

theorem onLine_shift {x2 y2 x2' y2' : Field} (hx2 : x2'.toInt = x2.toInt + dx) (hy2 : y2'.toInt = y2.toInt + dy)
    (rx ry : Int) : OnLine s' x' y' x2' y2' rx ry ↔ OnLine s x y x2 y2 rx ry := by
  rw [OnLine, OnLine, hx, hy, hx2, hy2, onWideLine_shift hcamX hcamY, onWideLine_shift hcamX hcamY]
  simp only [Int.add_lt_add_iff_right]
  split_ifs
  · rfl
  · rfl
  · omega

end

end Sys2Proof.Claims

/-- Settles O39: the loops' pixels are the box and its border. -/
theorem rectanglesPaintTheirClosedForm : Obligations.RectanglesPaintTheirClosedForm :=
  fun _ x y w h col hs => ⟨exec_fillRect_paints x y w h col hs, exec_drawRectBorder_paints x y w h col hs⟩

/-- Settles O40: the loop's pixels, branch by branch, with LineY as a floor. -/
theorem drawLinePaintsItsPixels : Obligations.DrawLinePaintsItsPixels :=
  fun _ x1 y1 x2 y2 col hs => exec_drawLine_paints x1 y1 x2 y2 col hs

/-- Settles O46: the painted sets are the same raw pixels. -/
theorem cameraIsAPureShift : Obligations.CameraIsAPureShift := by
  intro s s' dx dy x y x' y' w h x2 y2 x2' y2' col hs hs' hsame hcamX hcamY hx hy hx2 hy2
  refine ⟨?box, ?border, ?line⟩
  case box =>
    obtain ⟨t, hexec, -, hpaints⟩ := exec_fillRect_paints x y w h col hs
    obtain ⟨t', hexec', -, hpaints'⟩ := exec_fillRect_paints x' y' w h col hs'
    exact ⟨t, t', hexec, hexec', samePicture_of_paints hpaints hpaints' hsame (inBox_shift hcamX hcamY hx hy w h)⟩
  case border =>
    obtain ⟨t, hexec, -, hpaints⟩ := exec_drawRectBorder_paints x y w h col hs
    obtain ⟨t', hexec', -, hpaints'⟩ := exec_drawRectBorder_paints x' y' w h col hs'
    exact ⟨t, t', hexec, hexec', samePicture_of_paints hpaints hpaints' hsame (onBorder_shift hcamX hcamY hx hy w h)⟩
  case line =>
    obtain ⟨t, hexec, -, hpaints⟩ := exec_drawLine_paints x y x2 y2 col hs
    obtain ⟨t', hexec', -, hpaints'⟩ := exec_drawLine_paints x' y' x2' y2' col hs'
    exact ⟨t, t', hexec, hexec', samePicture_of_paints hpaints hpaints' hsame (onLine_shift hcamX hcamY hx hy hx2 hy2)⟩

/-- Settles O47: with the camera so far out, every pixel of the shape has a negative coordinate. -/
theorem farCameraHidesShapes : Obligations.FarCameraHidesShapes := by
  intro s x y w h col
  have hx := BitVec.toInt_lt (x := x)
  have hy := BitVec.toInt_lt (x := y)
  have hw := BitVec.toInt_lt (x := w)
  have hh := BitVec.toInt_lt (x := h)
  refine ⟨fun hcam => ?line, fun hcam => ?rectangles⟩
  case line =>
    rw [exec_drawLine_loop, plotAll_of_off fun p hp => inCanvas_eq_false ?_]
    · rfl
    · have hbounds := lineLoop_bounds hp
      omega
  case rectangles =>
    have hoff : ∀ p ∈ fillLoop x.toInt y.toInt w.toInt h.toInt s.camX s.camY, inCanvas p.1 p.2 = false := by
      intro p hp
      have hbounds := mem_fillLoop.1 hp
      exact inCanvas_eq_false (by omega)
    rw [exec_fillRect_loop, exec_drawRectBorder_loop, plotAll_of_off hoff,
      plotAll_of_off fun p hp => hoff p (mem_borderLoop.1 hp).1]
    exact ⟨rfl, rfl⟩
end

section
/-! PROOF. Advances in a row (44_frame_clock.md R220, R222). -/

open Sys2Proof Sys2Proof.Machine Sys2Proof.Claims

namespace Sys2Proof.Claims

/-- One advance: its response, its row, its count (R220). -/
theorem exec_advance_counts {s : State} (hs : s.mem.wf = true) :
    ∃ t, exec .advance s = .next t ∧ Answers s t .ok 0 ∧ WritesOnly s t (fun a => 0x3607 ≤ a ∧ a ≤ 0x3609) ∧
      t.frameCount = (s.frameCount + 1) % 2 ^ 24 := by
  obtain ⟨t, hexec, hwrites⟩ := exec_writesOnly .advance hs
  refine ⟨t, hexec, ?_, hwrites, frameCount_of_exec_advance hs hexec⟩
  cases hexec
  exact answers_respond_setMem s _ .ok 0

/-- `n` advances count `n`, round and round (R222). -/
theorem execAll_advance_counts (n : Nat) {s : State} (hs : s.mem.wf = true) :
    ∃ t, execAll (List.replicate n .advance) s = .next t ∧ t.frameCount = (s.frameCount + n) % 2 ^ 24 := by
  induction n generalizing s with
  | zero => exact ⟨s, rfl, by rw [Nat.add_zero, Nat.mod_eq_of_lt s.frameCount_lt]⟩
  | succ n ih =>
    obtain ⟨t, hexec, -, ⟨ht, -⟩, hcount⟩ := exec_advance_counts hs
    obtain ⟨u, hall, hcounts⟩ := ih ht
    refine ⟨u, by rw [List.replicate_succ, execAll, hexec]; exact hall, ?_⟩
    rw [hcounts, hcount]
    omega

end Sys2Proof.Claims

/-- Settles O48: one advance, and an induction on their number. -/
theorem advanceCountsModulo2To24 : Obligations.AdvanceCountsModulo2To24 :=
  ⟨encodes_advance, fun _ hs => exec_advance_counts hs, fun n _ hs => execAll_advance_counts n hs⟩
end
